-- ==== Sys2Proof/Word.lean ====
section
/-! DEFINITION. The words of TCUS: widths only (00_scope.md R7, R8, R9). -/

namespace Sys2Proof

/-- A raw register byte, an 8-bit result port or an 8-bit operand (R7: `BYTE_W`, `VAL_W`). -/
abbrev Byte := BitVec 8

/-- The `year` port and the year operand (R7: `YEAR_W`, 16 bits; log 18). -/
abbrev Year := BitVec 16

/-- The command code `CMD[4:0]` (R7: `CMD_W`, R57). -/
abbrev Cmd := BitVec 5

/-- The operand bus `A[55:0]` (R7: `A_W`, R58). -/
abbrev OperandBus := BitVec 56

end Sys2Proof
end

