-- ==== Sys2Proof/Config.lean ====
section
/-! DEFINITION. What is fixed for the machine and read by no operation (00_scope.md R7, 10_state.md R25). -/

namespace Sys2Proof

/-- `TIMER_RATE_HZ` (R7, R126): the rate the one INIT hands to the timer peripheral. The spec leaves it OPEN (D25, U17) with 10 as
the reference value, and no rule reads it, so nothing here fixes it (log 16). -/
opaque Config.timerRateHz : Nat

/-- `BUS_DEV_ADDR` (R7, R39): the device address on the two-wire bus, a constant of the environment. -/
def Config.busDevAddr : BitVec 7 := 0x68#7

/-- `SNAP_LEN` (R7, R13, R35): the bytes of a RawSnapshot. -/
def Config.snapLen : Nat := 7

end Sys2Proof
end

