-- ==== Sys2Proof/Syntax.lean ====
section
/-! DEFINITION. The 19 operations of TCUS and their operands (30_encoding.md R55, R58, R59; 10_state.md R13, R14). -/

namespace Sys2Proof

/-- The tag of an hours value (R55: codes 0, 1, 2; log 13). -/
inductive HourTag where
  | h24
  | am
  | pm
  deriving DecidableEq, Repr

/-- The 2-bit `tag` operand of ENC.HOUR (R58, R88): one of the three tags, or the reserved code 3 (R61). -/
inductive TagField where
  | valid (tag : HourTag)
  | reserved
  deriving DecidableEq, Repr

/-- The raw register index 0 to 6 by name (R14, R32). Index 7 names nothing. -/
inductive Reg where
  | sec
  | min
  | hour
  | dow
  | day
  | mon
  | year
  deriving DecidableEq, Repr

/-- A RawSnapshot: exactly seven bytes, byte 0 first (R13, R14, R33, R35). It is an operand, never state (R15). -/
structure RawSnapshot where
  sec  : Byte
  min  : Byte
  hour : Byte
  dow  : Byte
  day  : Byte
  mon  : Byte
  year : Byte
  deriving DecidableEq, Repr

/-- The operations of the operation map (R59), one constructor for each row of the opcode table, with the operands of R58. -/
inductive Instr where
  | decSec (raw : RawSnapshot)
  | decMin (raw : RawSnapshot)
  | decHour (raw : RawSnapshot)
  | decDow (raw : RawSnapshot)
  | decDay (raw : RawSnapshot)
  | decMon (raw : RawSnapshot)
  | decYear (raw : RawSnapshot)
  | decode (raw : RawSnapshot)
  | encSec (v : Byte)
  | encMin (v : Byte)
  | encHour (tag : TagField) (v : Byte)
  | encDow (idx : Byte)
  | encDay (v : Byte)
  | encMon (month : Byte) (year : Year)
  | encYear (year : Year)
  | poll
  | tick
  | init
  | fire
  deriving DecidableEq, Repr

end Sys2Proof
end

