-- ==== Sys2Proof/WellFormed.lean ====
section
/-! DEFINITION. Which instructions the encoding has (30_encoding.md R60, R61). -/

namespace Sys2Proof

/-- The one check the types leave: the tag operand of ENC.HOUR is not the reserved code 3 (R61). Every snapshot, every 8-bit value and
every 16-bit year is accepted (R62). -/
def Instr.wf : Instr → Bool
  | .decSec _ => true
  | .decMin _ => true
  | .decHour _ => true
  | .decDow _ => true
  | .decDay _ => true
  | .decMon _ => true
  | .decYear _ => true
  | .decode _ => true
  | .encSec _ => true
  | .encMin _ => true
  | .encHour tag _ => tag != .reserved
  | .encDow _ => true
  | .encDay _ => true
  | .encMon _ _ => true
  | .encYear _ => true
  | .poll => true
  | .tick => true
  | .init => true
  | .fire => true

end Sys2Proof
end

