-- ==== Sys2Proof/Decode.lean ====
section
/-! DEFINITION. From the command code and the operand bus to an operation, and back (30_encoding.md R57 to R61, 20_memory.md R33). -/

namespace Sys2Proof

/-- What names an operation to TCUS: the 5-bit command code and the 56-bit operand bus (R57, R58, R68: always this one length). -/
structure BusWord where
  cmd : Cmd
  a   : OperandBus
  deriving DecidableEq, Repr

/-- Why a bus word spells no operation. -/
inductive DecodeError where
  /-- Command code 15 or 20 to 31 (R60). -/
  | reservedCommand (cmd : Cmd)
  /-- Tag code 3 on ENC.HOUR (R61). -/
  | reservedTag
  deriving DecidableEq, Repr

/-- `CMD[4:3]` (R57). -/
def unitField (cmd : Cmd) : BitVec 2 := cmd.extractLsb' 3 2

/-- `CMD[2:0]` (R57). -/
def selField (cmd : Cmd) : BitVec 3 := cmd.extractLsb' 0 3

/-- Byte `i` of a snapshot is `A[8i+7:8i]` (R33, R58). -/
def rawOfBus (a : OperandBus) : RawSnapshot where
  sec  := a.extractLsb' 0 8
  min  := a.extractLsb' 8 8
  hour := a.extractLsb' 16 8
  dow  := a.extractLsb' 24 8
  day  := a.extractLsb' 32 8
  mon  := a.extractLsb' 40 8
  year := a.extractLsb' 48 8

/-- `A[7:0]`, the 8-bit value, index or month operand (R58). -/
def valueField (a : OperandBus) : Byte := a.extractLsb' 0 8

/-- `A[31:16]`, the year operand (R58). -/
def yearField (a : OperandBus) : Year := a.extractLsb' 16 16

/-- `A[9:8]`, the tag operand, by the codes of R55. -/
def tagField (a : OperandBus) : TagField :=
  match (a.extractLsb' 8 2).toNat with
  | 0 => .valid .h24
  | 1 => .valid .am
  | 2 => .valid .pm
  | _ => .reserved

/-- Unit 0, the decode unit (R57, R59): every `sel` names an operation. -/
def decodeUnitOp (sel : Nat) (a : OperandBus) : Option Instr :=
  match sel with
  | 0 => some (.decSec (rawOfBus a))
  | 1 => some (.decMin (rawOfBus a))
  | 2 => some (.decHour (rawOfBus a))
  | 3 => some (.decDow (rawOfBus a))
  | 4 => some (.decDay (rawOfBus a))
  | 5 => some (.decMon (rawOfBus a))
  | 6 => some (.decYear (rawOfBus a))
  | 7 => some (.decode (rawOfBus a))
  | _ => none

/-- Unit 1, the encode unit (R57, R59): `sel` 7 is reserved (R60). -/
def encodeUnitOp (sel : Nat) (a : OperandBus) : Option Instr :=
  match sel with
  | 0 => some (.encSec (valueField a))
  | 1 => some (.encMin (valueField a))
  | 2 => some (.encHour (tagField a) (valueField a))
  | 3 => some (.encDow (valueField a))
  | 4 => some (.encDay (valueField a))
  | 5 => some (.encMon (valueField a) (yearField a))
  | 6 => some (.encYear (yearField a))
  | _ => none

/-- Unit 2, the scheduler (R57, R59): `sel` 4 to 7 are reserved (R60). -/
def schedulerOp (sel : Nat) : Option Instr :=
  match sel with
  | 0 => some .poll
  | 1 => some .tick
  | 2 => some .init
  | 3 => some .fire
  | _ => none

/-- The operation a command code and operand bus name, before the reserved tag is looked at; unit 3 is reserved (R60). -/
def operationOf (w : BusWord) : Option Instr :=
  match (unitField w.cmd).toNat with
  | 0 => decodeUnitOp (selField w.cmd).toNat w.a
  | 1 => encodeUnitOp (selField w.cmd).toNat w.a
  | 2 => schedulerOp (selField w.cmd).toNat
  | _ => none

/-- The decoder: total on every bus word; a reserved command code or a reserved tag is rejected by name (R59, R60, R61). -/
def decode (w : BusWord) : Except DecodeError Instr :=
  match operationOf w with
  | none => .error (.reservedCommand w.cmd)
  | some i => if i.wf then .ok i else .error .reservedTag

/-! ### The encoder, from the same tables -/

/-- The raw register index (10_state.md R14, 20_memory.md R32): the `sel` field of the codec's commands (R57). -/
def regIndex : Reg → BitVec 3
  | .sec => 0
  | .min => 1
  | .hour => 2
  | .dow => 3
  | .day => 4
  | .mon => 5
  | .year => 6

/-- `unit` above `sel` (R57). -/
def cmdOf (unit : BitVec 2) (sel : BitVec 3) : Cmd := unit ++ sel

/-- The code column of the operation map (R59). -/
def Instr.cmd : Instr → Cmd
  | .decSec _ => cmdOf 0 (regIndex .sec)
  | .decMin _ => cmdOf 0 (regIndex .min)
  | .decHour _ => cmdOf 0 (regIndex .hour)
  | .decDow _ => cmdOf 0 (regIndex .dow)
  | .decDay _ => cmdOf 0 (regIndex .day)
  | .decMon _ => cmdOf 0 (regIndex .mon)
  | .decYear _ => cmdOf 0 (regIndex .year)
  | .decode _ => cmdOf 0 7
  | .encSec _ => cmdOf 1 (regIndex .sec)
  | .encMin _ => cmdOf 1 (regIndex .min)
  | .encHour _ _ => cmdOf 1 (regIndex .hour)
  | .encDow _ => cmdOf 1 (regIndex .dow)
  | .encDay _ => cmdOf 1 (regIndex .day)
  | .encMon _ _ => cmdOf 1 (regIndex .mon)
  | .encYear _ => cmdOf 1 (regIndex .year)
  | .poll => cmdOf 2 0
  | .tick => cmdOf 2 1
  | .init => cmdOf 2 2
  | .fire => cmdOf 2 3

/-- A snapshot on the operand bus, byte 0 least significant (R33, R58). -/
def rawToBus (raw : RawSnapshot) : OperandBus :=
  raw.year ++ raw.mon ++ raw.day ++ raw.dow ++ raw.hour ++ raw.min ++ raw.sec

/-- The 2-bit code of a tag operand (R55). -/
def tagCode : TagField → BitVec 2
  | .valid .h24 => 0
  | .valid .am => 1
  | .valid .pm => 2
  | .reserved => 3

/-- An encoder's operands on the bus: `year` at `A[31:16]`, `tag` at `A[9:8]`, the value at `A[7:0]`, every other bit 0 (R58). -/
def operandsToBus (year : Year) (tag : BitVec 2) (v : Byte) : OperandBus :=
  (0#24 : BitVec 24) ++ year ++ (0#6 : BitVec 6) ++ tag ++ v

/-- The operand bus of an operation, ignored bits 0 (R58). -/
def Instr.bus : Instr → OperandBus
  | .decSec raw => rawToBus raw
  | .decMin raw => rawToBus raw
  | .decHour raw => rawToBus raw
  | .decDow raw => rawToBus raw
  | .decDay raw => rawToBus raw
  | .decMon raw => rawToBus raw
  | .decYear raw => rawToBus raw
  | .decode raw => rawToBus raw
  | .encSec v => operandsToBus 0 0 v
  | .encMin v => operandsToBus 0 0 v
  | .encHour tag v => operandsToBus 0 (tagCode tag) v
  | .encDow idx => operandsToBus 0 0 idx
  | .encDay v => operandsToBus 0 0 v
  | .encMon month year => operandsToBus year 0 month
  | .encYear year => operandsToBus year 0 0
  | .poll => 0
  | .tick => 0
  | .init => 0
  | .fire => 0

/-- The encoder. -/
def encode (i : Instr) : BusWord := ⟨i.cmd, i.bus⟩

/-- The bits of `A` that R58 gives a command; it marks all others ignored (R61). A reserved code has no operand. -/
def operandMask (cmd : Cmd) : OperandBus :=
  match cmd.toNat with
  | 0 | 1 | 2 | 3 | 4 | 5 | 6 | 7 => 0xFFFFFFFFFFFFFF#56
  | 8 | 9 | 11 | 12 => 0xFF#56
  | 10 => 0x3FF#56
  | 13 => 0xFFFF00FF#56
  | 14 => 0xFFFF0000#56
  | _ => 0#56

/-! ### The opcode table's numbering of an operation's bits -/

/-- A word as the opcode table numbers it: `CMD` in bits 4:0 of the first byte (bits 7:5 have no wire), then the seven bytes of `A`,
lowest first (log 12). -/
def busWordOfTable (nbits w : Nat) : BusWord where
  cmd := BitVec.ofNat 5 (w % 2 ^ nbits)
  a   := BitVec.ofNat 56 (w % 2 ^ nbits / 256)

/-- The operation the decoder reads from a table word, if any. -/
def decodeTableWord (nbits w : Nat) : Option Instr := (decode (busWordOfTable nbits w)).toOption

end Sys2Proof
end

