-- ==== Sys2Proof/Machine/State.lean ====
section
/-! DEFINITION. The state of TCUS (10_state.md R17 to R23), the result ports, and what the outside world presents. -/

namespace Sys2Proof.Machine

/-- The three agents that take steps (00_scope.md R11, 60_exceptions.md R129, R130). -/
inductive Agent where
  | timer
  | interrupt
  | main
  deriving DecidableEq, Repr

/-- The day of the week on port `dow` (30_encoding.md R56: codes 0 to 6, and 7 for absent; logs 13, 20). -/
inductive Dow where
  | mon
  | tue
  | wed
  | thu
  | fri
  | sat
  | sun
  | unknown
  deriving DecidableEq, Repr

/-- The Time record (R54); `dow_valid` is a function of `dow`. -/
structure Time where
  sec    : Byte
  min    : Byte
  hrTag  : HourTag
  hrVal  : Byte
  dow    : Dow
  day    : Byte
  month  : Byte
  year   : Year
  deriving DecidableEq, Repr

/-- The result ports (R54, R67). `none` is a port the operation does not drive (10_state.md R23; log 2). -/
structure Ports where
  sec      : Option Byte
  min      : Option Byte
  hrTag    : Option HourTag
  hrVal    : Option Byte
  dow      : Option Dow
  dowValid : Option Bool
  day      : Option Byte
  month    : Option Byte
  year     : Option Year
  q        : Option Byte
  due      : Option Bool
  deriving DecidableEq, Repr

/-- One thing the outside world does to TCUS. -/
inductive Input where
  /-- An agent presents a command code and an operand bus (R16, R57). -/
  | op (agent : Agent) (word : BusWord)
  /-- A two-wire bus transaction of the environment fails (60_exceptions.md R118). -/
  | busFault
  /-- The processor traps a fault of its own (R119). -/
  | processorFault
  /-- The power goes off and comes back (R134, 70_reset_and_hazards.md R136; log 21). -/
  | powerCycle
  deriving DecidableEq, Repr

/-- Why the machine stops with a fault. No operation of TCUS raises one (R116): both are the environment's terminal outcomes. -/
inductive Fault where
  /-- Raised by `step` on the input `busFault`: the run ends, S unchanged (R118, U15). Safe: nothing further is provable of the run. -/
  | busTransaction
  /-- Raised by `step` on the input `processorFault`: the program terminates (R119, U16). Safe, for the same reason. -/
  | processor
  deriving DecidableEq, Repr

/-- Why there is no step (`refuse` of R10). -/
inductive Refusal where
  /-- An arm of `exec` without a meaning; no arm is. Safe. -/
  | notModelled (mnemonic : String)
  /-- Raised by `step`: command code 15 or 20 to 31 spells no operation (R60, U9; log 5). Safe. -/
  | reservedCommand (cmd : Cmd)
  /-- Raised by ENC.HOUR and by `step`: tag code 3 (R61, R88, U10; log 5). Safe. -/
  | reservedTag
  /-- Raised by `step`: the operation is presented by an agent that may not issue it (R130, U11; log 6). Safe. -/
  | wrongContext (presenter : Agent)
  /-- Raised by FIRE with RUN = 0: "FIRE has no step" (42_scheduler.md R102; log 4). Safe. -/
  | fireNotEnabled
  /-- Raised by TICK with TIP = 0: "TICK is never taken with TIP = 0" (R103; log 4). Safe. -/
  | tickNotEnabled
  deriving DecidableEq, Repr

/-- The architectural triple `S = (UF, TIP, RUN)` (10_state.md R20), and two fields of the model: the ports driven by the last step (log 2) and
what is still to be presented, first to last, in the total order of 20_memory.md R41 (log 1). -/
structure State where
  uf     : Bool
  tip    : Bool
  run    : Bool
  out    : Ports
  inputs : List Input
  deriving DecidableEq, Repr

/-- What a step answers. -/
abbrev Result := Host.Outcome State Fault Refusal

/-- No port driven (R23). -/
def Ports.undriven : Ports where
  sec      := none
  min      := none
  hrTag    := none
  hrVal    := none
  dow      := none
  dowValid := none
  day      := none
  month    := none
  year     := none
  q        := none
  due      := none

/-- The machine right after power-on (10_state.md R22, 70_reset_and_hazards.md R137): `S = (0, 0, 0)`, no port driven, nothing presented yet
(TIP and RUN: log 7; inputs: log 1). -/
def State.reset : State where
  uf     := false
  tip    := false
  run    := false
  out    := Ports.undriven
  inputs := []

end Sys2Proof.Machine
end

