-- ==== Sys2Proof/Machine/Operands.lean ====
section
/-! DEFINITION. Byte formats and the codec's arithmetic: every operand form of the decode and encode units (30_encoding.md R46 to R56,
40_decode.md R70 to R77, 41_encode.md R86 to R92). Each function computes exactly on natural numbers and narrows at the end (R9). -/

namespace Sys2Proof.Machine

/-- `raw[i]` by register index (10_state.md R14). -/
def rawByte (raw : RawSnapshot) : Reg → Byte
  | .sec => raw.sec
  | .min => raw.min
  | .hour => raw.hour
  | .dow => raw.dow
  | .day => raw.day
  | .mon => raw.mon
  | .year => raw.year

/-- A snapshot with one byte replaced (the environment's view, R38; no operation of TCUS writes a raw byte). -/
def setRawByte (raw : RawSnapshot) (r : Reg) (b : Byte) : RawSnapshot :=
  match r with
  | .sec => { raw with sec := b }
  | .min => { raw with min := b }
  | .hour => { raw with hour := b }
  | .dow => { raw with dow := b }
  | .day => { raw with day := b }
  | .mon => { raw with mon := b }
  | .year => { raw with year := b }

/-! ### The two shared functions -/

/-- `b[3:0]`, the units digit, 0 to 15 as it stands (R34, R46; hours: log 10). -/
def unitsDigit (b : Byte) : Nat := (b.extractLsb' 0 4).toNat

/-- `b[7:4]`, the tens digit, 0 to 15 as it stands (R34, R46). -/
def tensDigit (b : Byte) : Nat := (b.extractLsb' 4 4).toNat

/-- Packed BCD to number (R52): 0 to 165, so nothing wraps. -/
def bcd8 (b : Byte) : Byte := BitVec.ofNat 8 (unitsDigit b + 10 * tensDigit b)

/-- Number to packed BCD (R53, 90_conflicts.md C3): the tens digit, masked to 4 bits, in the high nibble. -/
def pack8 (v : Byte) : Byte := BitVec.ofNat 8 (16 * (v.toNat / 10 % 16) + v.toNat % 10)

/-! ### Decode: hours -/

/-- `mode12`, bit 6 of the hours byte (R48, 90_conflicts.md C1). -/
def mode12 (b : Byte) : Bool := b.getLsbD 6

/-- `pm_or_20`, bit 5: 1 = PM in 12-hour mode (R49, 90_conflicts.md C7). -/
def pmBit (b : Byte) : Bool := b.getLsbD 5

/-- `h10`, bit 4: +10 in 12-hour mode (R49). -/
def hour10 (b : Byte) : Nat := (b.extractLsb' 4 1).toNat

/-- `b[5:4]`, the tens digit of 24-hour mode (R47: mask 0b0011_0000). -/
def hourTens24 (b : Byte) : Nat := (b.extractLsb' 4 2).toNat

/-- `hr_tag` of an hours byte (R72). -/
def hourTagOf (b : Byte) : HourTag :=
  if mode12 b then (if pmBit b then .pm else .am) else .h24

/-- `hr_val` of an hours byte (R72); bit 7 is ignored (R47, log 10). -/
def hourValOf (b : Byte) : Byte :=
  if mode12 b then BitVec.ofNat 8 (unitsDigit b + 10 * hour10 b)
  else BitVec.ofNat 8 (unitsDigit b + 10 * hourTens24 b)

/-! ### Decode: day of the week -/

/-- The name of a 0-based index; anything above 6 is unknown (R56). -/
def dowOfIndex : Nat → Dow
  | 0 => .mon
  | 1 => .tue
  | 2 => .wed
  | 3 => .thu
  | 4 => .fri
  | 5 => .sat
  | 6 => .sun
  | _ => .unknown

/-- The day of the week of a raw byte (R75): 0 is unknown, without a subtraction; the whole byte is the index (R51, log 9). -/
def dowOf (b : Byte) : Dow :=
  if b.toNat = 0 then .unknown else dowOfIndex (b.toNat - 1)

/-- The code of a day of the week on port `dow` (R56). -/
def dowCode : Dow → BitVec 3
  | .mon => 0
  | .tue => 1
  | .wed => 2
  | .thu => 3
  | .fri => 4
  | .sat => 5
  | .sun => 6
  | .unknown => 7

/-- The code of an hours tag on port `hr_tag` (R55). -/
def hourTagCode : HourTag → BitVec 2
  | .h24 => 0
  | .am => 1
  | .pm => 2

/-! ### Decode: month and year -/

/-- The century bit, bit 7 of the month byte (R50, 90_conflicts.md C2). -/
def centuryBit (b : Byte) : Bool := b.getLsbD 7

/-- The month, century bit masked out (R76). -/
def monthOf (b : Byte) : Byte := bcd8 (b &&& 0x7F#8)

/-- `CENTURY_BASE_SET` and `CENTURY_BASE_CLEAR` (R7). -/
def centuryBase (set : Bool) : Nat := if set then 2000 else 1900

/-- The year of a month byte and a year byte (R77): at most 2165, so nothing wraps. -/
def yearOf (mon year : Byte) : Year := BitVec.ofNat 16 (centuryBase (centuryBit mon) + (bcd8 year).toNat)

/-- The whole snapshot (R78). -/
def timeOf (raw : RawSnapshot) : Time where
  sec    := bcd8 raw.sec
  min    := bcd8 raw.min
  hrTag  := hourTagOf raw.hour
  hrVal  := hourValOf raw.hour
  dow    := dowOf raw.dow
  day    := bcd8 raw.day
  month  := monthOf raw.mon
  year   := yearOf raw.mon raw.year

/-! ### Encode -/

/-- The encoder's offset of a tag: none, `AM_OFFSET`, `PM_OFFSET` (R7, R88). -/
def hourOffset : HourTag → Nat
  | .h24 => 0
  | .am => 40
  | .pm => 60

/-- The hours byte (R88): the sum in 8 bits (log 8), then packed. -/
def hourByte (tag : HourTag) (v : Byte) : Byte := pack8 (BitVec.ofNat 8 (v.toNat + hourOffset tag))

/-- The day-of-week byte (R89): the sum itself, not packed (log 9). -/
def dowByte (idx : Byte) : Byte := BitVec.ofNat 8 (idx.toNat + 1)

/-- `CENTURY_OFFSET` when the year is 2000 or later (R7, R91). -/
def centuryOffset (year : Year) : Nat := if 2000 ≤ year.toNat then 80 else 0

/-- The month byte with its century bit (R91): the sum in 8 bits (log 8), then packed. -/
def monthByte (month : Byte) (year : Year) : Byte := pack8 (BitVec.ofNat 8 (month.toNat + centuryOffset year))

/-- The year byte (R92). -/
def yearByte (year : Year) : Byte := pack8 (BitVec.ofNat 8 (year.toNat % 100))

end Sys2Proof.Machine
end

