-- ==== Sys2Proof/Machine/Flags.lean ====
section
/-! DEFINITION. The state bits' updates and the one validity flag (10_state.md R17 to R21, 40_decode.md R75). -/

namespace Sys2Proof.Machine

/-- `S.UF <- 1` (TICK only, R103). -/
def State.setUf (s : State) : State := { s with uf := true }

/-- `S.UF <- 0` (POLL only, R104). -/
def State.clearUf (s : State) : State := { s with uf := false }

/-- `S.TIP <- 1` (FIRE only, R102). -/
def State.setTip (s : State) : State := { s with tip := true }

/-- `S.TIP <- 0`, "clear pending-interrupt indication" (TICK only, R103, R127). -/
def State.clearTip (s : State) : State := { s with tip := false }

/-- `S.RUN <- 1`: the timer configured and interrupt delivery enabled (INIT only, R101, R126). -/
def State.setRun (s : State) : State := { s with run := true }

/-- `dow_valid` (R56): 1 exactly when the day of the week is known. -/
def dowValidOf (d : Dow) : Bool := d != .unknown

end Sys2Proof.Machine
end

