-- ==== Sys2Proof/Machine/Ops.lean ====
section
/-! DEFINITION. Driving the result ports, ending an operation, and the steps of the outside world that are no operation
(10_state.md R23, 60_exceptions.md R118, R119, R134). TCUS takes no exception (R116), and entry to and return from its one interrupt handler
change nothing of it (R124, R125): the handler is the one step TICK. -/

namespace Sys2Proof.Machine

/-- Drive exactly the ports `p` (R67). -/
def State.drive (p : Ports) (s : State) : State := { s with out := p }

/-- An operation completes, driving exactly the ports `p`. -/
def finish (p : Ports) (s : State) : Result := .next (s.drive p)

/-- Only `q`, the encoded byte (R59, R67). -/
def qPort (b : Byte) : Ports := { Ports.undriven with q := some b }

/-- Only `due`, the poll result (R59, R67). -/
def duePort (due : Bool) : Ports := { Ports.undriven with due := some due }

/-- The nine ports of a Time record (R54, R78). -/
def timePorts (t : Time) : Ports :=
  { Ports.undriven with
    sec := some t.sec, min := some t.min, hrTag := some t.hrTag, hrVal := some t.hrVal,
    dow := some t.dow, dowValid := some (dowValidOf t.dow), day := some t.day, month := some t.month, year := some t.year }

/-- Nothing is presented: S is kept and no port is driven (log 3). -/
def idle (s : State) : Result := finish Ports.undriven s

/-- Power off and on again: S does not survive and starts from reset (R134, R136; log 21). What the environment presents afterwards is
the environment's. -/
def powerOn (rest : List Input) : Result := .next { State.reset with inputs := rest }

end Sys2Proof.Machine
end

