-- ==== Sys2Proof/Machine/DecodeUnit.lean ====
section
/-! DEFINITION. The decode unit (40_decode.md): a function of the snapshot and of nothing else (R69). -/

namespace Sys2Proof.Machine

/-- DEC.SEC (R70). -/
def execDecSec (raw : RawSnapshot) (s : State) : Result :=
  finish { Ports.undriven with sec := some (bcd8 raw.sec) } s

/-- DEC.MIN (R71). -/
def execDecMin (raw : RawSnapshot) (s : State) : Result :=
  finish { Ports.undriven with min := some (bcd8 raw.min) } s

/-- DEC.HOUR (R72, R73): the tag is kept, no conversion between the two forms. -/
def execDecHour (raw : RawSnapshot) (s : State) : Result :=
  finish { Ports.undriven with hrTag := some (hourTagOf raw.hour), hrVal := some (hourValOf raw.hour) } s

/-- DEC.DOW (R75). -/
def execDecDow (raw : RawSnapshot) (s : State) : Result :=
  finish { Ports.undriven with dow := some (dowOf raw.dow), dowValid := some (dowValidOf (dowOf raw.dow)) } s

/-- DEC.DAY (R74). -/
def execDecDay (raw : RawSnapshot) (s : State) : Result :=
  finish { Ports.undriven with day := some (bcd8 raw.day) } s

/-- DEC.MON (R76). -/
def execDecMon (raw : RawSnapshot) (s : State) : Result :=
  finish { Ports.undriven with month := some (monthOf raw.mon) } s

/-- DEC.YEAR (R77). -/
def execDecYear (raw : RawSnapshot) (s : State) : Result :=
  finish { Ports.undriven with year := some (yearOf raw.mon raw.year) } s

/-- DECODE (R78): the seven field decoders on one snapshot. -/
def execDecode (raw : RawSnapshot) (s : State) : Result :=
  finish (timePorts (timeOf raw)) s

end Sys2Proof.Machine
end

