-- ==== Sys2Proof/Machine/EncodeUnit.lean ====
section
/-! DEFINITION. The encode unit (41_encode.md): one byte on port `q`, nothing validated, nothing written anywhere (R85, R98). -/

namespace Sys2Proof.Machine

/-- ENC.SEC (R86). -/
def execEncSec (v : Byte) (s : State) : Result := finish (qPort (pack8 v)) s

/-- ENC.MIN (R87). -/
def execEncMin (v : Byte) (s : State) : Result := finish (qPort (pack8 v)) s

/-- ENC.HOUR (R88): the reserved tag is refused (R61, log 5). -/
def execEncHour (tag : TagField) (v : Byte) (s : State) : Result :=
  match tag with
  | .valid t => finish (qPort (hourByte t v)) s
  | .reserved => .refused .reservedTag

/-- ENC.DOW (R89). -/
def execEncDow (idx : Byte) (s : State) : Result := finish (qPort (dowByte idx)) s

/-- ENC.DAY (R90). -/
def execEncDay (v : Byte) (s : State) : Result := finish (qPort (pack8 v)) s

/-- ENC.MON (R91). -/
def execEncMon (month : Byte) (year : Year) (s : State) : Result := finish (qPort (monthByte month year)) s

/-- ENC.YEAR (R92). -/
def execEncYear (year : Year) (s : State) : Result := finish (qPort (yearByte year)) s

end Sys2Proof.Machine
end

