-- ==== Sys2Proof/Machine/Scheduler.lean ====
section
/-! DEFINITION. The update scheduler (42_scheduler.md). Each operation is one atomic step (R107). -/

namespace Sys2Proof.Machine

/-- POLL (R104): reads UF and, only if it was 1, clears it; `due` is the value read. -/
def execPoll (s : State) : Result :=
  if s.uf then finish (duePort true) s.clearUf else finish (duePort false) s

/-- TICK (R103), enabled when TIP = 1: clear TIP, then set UF, in one step (R141). -/
def execTick (s : State) : Result :=
  if s.tip then finish Ports.undriven s.clearTip.setUf else .refused .tickNotEnabled

/-- INIT (R101): always enabled. -/
def execInit (s : State) : Result := finish Ports.undriven s.setRun

/-- FIRE (R102), enabled when RUN = 1. -/
def execFire (s : State) : Result :=
  if s.run then finish Ports.undriven s.setTip else .refused .fireNotEnabled

end Sys2Proof.Machine
end

