-- ==== Sys2Proof/Machine/Dispatch.lean ====
section
/-! DEFINITION. One arm for each operation of the operation map (30_encoding.md R59). -/

namespace Sys2Proof.Machine

def exec (i : Instr) (s : State) : Host.Outcome State Fault Refusal :=
  match i with
  | .decSec raw => Sys2Proof.Machine.execDecSec raw s
  | .decMin raw => Sys2Proof.Machine.execDecMin raw s
  | .decHour raw => Sys2Proof.Machine.execDecHour raw s
  | .decDow raw => Sys2Proof.Machine.execDecDow raw s
  | .decDay raw => Sys2Proof.Machine.execDecDay raw s
  | .decMon raw => Sys2Proof.Machine.execDecMon raw s
  | .decYear raw => Sys2Proof.Machine.execDecYear raw s
  | .decode raw => Sys2Proof.Machine.execDecode raw s
  | .encSec v => Sys2Proof.Machine.execEncSec v s
  | .encMin v => Sys2Proof.Machine.execEncMin v s
  | .encHour tag v => Sys2Proof.Machine.execEncHour tag v s
  | .encDow idx => Sys2Proof.Machine.execEncDow idx s
  | .encDay v => Sys2Proof.Machine.execEncDay v s
  | .encMon month year => Sys2Proof.Machine.execEncMon month year s
  | .encYear year => Sys2Proof.Machine.execEncYear year s
  | .poll => Sys2Proof.Machine.execPoll s
  | .tick => Sys2Proof.Machine.execTick s
  | .init => Sys2Proof.Machine.execInit s
  | .fire => Sys2Proof.Machine.execFire s

end Sys2Proof.Machine
end

