-- ==== Sys2Proof/Machine/Issue.lean ====
section
/-! DEFINITION. How an operation is presented to TCUS: which agent may issue it, and what is refused before it runs
(60_exceptions.md R130, 30_encoding.md R60, R61). -/

namespace Sys2Proof.Machine

/-- The agent column of the operation map (R59, R130). -/
def agentOf : Instr → Agent
  | .decSec _ => .main
  | .decMin _ => .main
  | .decHour _ => .main
  | .decDow _ => .main
  | .decDay _ => .main
  | .decMon _ => .main
  | .decYear _ => .main
  | .decode _ => .main
  | .encSec _ => .main
  | .encMin _ => .main
  | .encHour _ _ => .main
  | .encDow _ => .main
  | .encDay _ => .main
  | .encMon _ _ => .main
  | .encYear _ => .main
  | .poll => .main
  | .tick => .interrupt
  | .init => .main
  | .fire => .timer

/-- The refusal a decode error turns into. -/
def refusalOf : DecodeError → Refusal
  | .reservedCommand cmd => .reservedCommand cmd
  | .reservedTag => .reservedTag

/-- What an agent presents is an operation it may issue (R130), or is refused by name. -/
def accept (agent : Agent) (word : BusWord) : Except Refusal Instr :=
  match decode word with
  | .error e => .error (refusalOf e)
  | .ok i => if agent = agentOf i then .ok i else .error (.wrongContext agent)

/-- An operation as its own agent presents it. -/
def present (i : Instr) : Input := .op (agentOf i) (encode i)

/-- A table word presented by the agent R59 names for it; a reserved word by the main context (log 1). -/
def presentWord (word : BusWord) : Input :=
  match decode word with
  | .ok i => .op (agentOf i) word
  | .error _ => .op .main word

end Sys2Proof.Machine
end

