-- ==== Sys2Proof/Machine/Step.lean ====
section
/-! DEFINITION. One step: the first thing presented happens, whole (00_scope.md R11, 20_memory.md R41). -/

namespace Sys2Proof.Machine

/-- Take the first input. An operation its agent may issue is executed with the rest still to come; nothing presented is an idle step (log 3). -/
def step (s : State) : Host.Outcome State Fault Refusal :=
  match s.inputs with
  | [] => idle s
  | .op agent word :: rest =>
    match accept agent word with
    | .ok i => exec i { s with inputs := rest }
    | .error r => .refused r
  | .busFault :: _ => .fault .busTransaction
  | .processorFault :: _ => .fault .processor
  | .powerCycle :: rest => powerOn rest

/-- `s` with one more operation presented, ahead of all others: the table word `w`, by the agent R59 names (log 1). TICK needs TIP = 1 and FIRE
needs RUN = 1 to be enabled (R102, R103); that is not set here. -/
def State.withFetchWord (s : State) (nbits w : Nat) : State :=
  { s with inputs := presentWord (busWordOfTable nbits w) :: s.inputs }

end Sys2Proof.Machine
end

