-- ==== Sys2Proof/Machine/Environment.lean ====
section
/-! DEFINITION. What the environment presents as far as the spec describes it: the main loop's turn and the bus transport's contract
(42_scheduler.md R113, 20_memory.md R37, R38, 60_exceptions.md R118; log 22). No step of TCUS uses it. -/

namespace Sys2Proof.Machine

/-- The two outcomes of `bus.read7()` (R37, R118): any seven bytes, or fatal. -/
inductive BusRead where
  | bytes (raw : RawSnapshot)
  | fatal
  deriving DecidableEq, Repr

/-- What the main loop presents after a POLL that drove `due` (R113): when due, the snapshot it reads is decoded, and a failed read ends the run; when not
due, nothing. -/
def afterPoll (due : Bool) (read : BusRead) : List Input :=
  if due then
    match read with
    | .bytes raw => [present (.decode raw)]
    | .fatal => [.busFault]
  else []

/-- The register index that goes to the bus write with the byte of an encode operation (R14, R38). -/
def encodedReg : Instr → Option Reg
  | .decSec _ => none
  | .decMin _ => none
  | .decHour _ => none
  | .decDow _ => none
  | .decDay _ => none
  | .decMon _ => none
  | .decYear _ => none
  | .decode _ => none
  | .encSec _ => some .sec
  | .encMin _ => some .min
  | .encHour _ _ => some .hour
  | .encDow _ => some .dow
  | .encDay _ => some .day
  | .encMon _ _ => some .mon
  | .encYear _ => some .year
  | .poll => none
  | .tick => none
  | .init => none
  | .fire => none

end Sys2Proof.Machine
end

