-- ==== Sys2Proof/Machine/Sequence.lean ====
section
/-! DEFINITION. Operations one after another, with the ports each drives, and the pseudo-operations that are such sequences
(30_encoding.md R66; log 19). -/

namespace Sys2Proof.Machine

/-- Run operations in the order given: the last state, and the ports each operation drove, in order. A sequence one of whose operations has no step
has none. -/
def execSeq : List Instr → State → Host.Outcome (State × List Ports) Fault Refusal
  | [], s => .next (s, [])
  | i :: is, s =>
    match exec i s with
    | .next t =>
      match execSeq is t with
      | .next (u, ps) => .next (u, t.out :: ps)
      | .fault r => .fault r
      | .refused r => .refused r
    | .fault r => .fault r
    | .refused r => .refused r

/-- ENC.YM (R66): the month byte, then the year byte, of the same year. -/
def encYM (year : Year) (month : Byte) : List Instr := [.encMon month year, .encYear year]

/-- ENC.TIME (R66): the seven fields, each through its encoder. -/
def encTime (t : Time) : List Instr :=
  [.encSec t.sec, .encMin t.min, .encHour (.valid t.hrTag) t.hrVal, .encDow ((dowCode t.dow).setWidth 8), .encDay t.day,
    .encMon t.month t.year, .encYear t.year]

/-- SERVICE (R66): a firing and its handler with nothing between them. -/
def service : List Instr := [.fire, .tick]

end Sys2Proof.Machine
end

