-- ==== Sys2Proof/Safety.lean ====
section
/-! DEFINITION. The terms claims about TCUS use: the invariant of every reachable state, the ranges of the ports, and the tighter delivery. -/

namespace Sys2Proof.Machine

/-- The invariant of the triple S (10_state.md R27 (i), (ii)): a pending firing or a pending flag implies a started timer. -/
def State.started (s : State) : Prop := (s.tip = true → s.run = true) ∧ (s.uf = true → s.run = true)

/-- The full ranges of the result ports, whatever the input (30_encoding.md R54, 40_decode.md R79), and `dow_valid` beside `dow` (R56). -/
structure Ports.InRange (p : Ports) : Prop where
  sec      : ∀ v ∈ p.sec, v.toNat ≤ 165
  min      : ∀ v ∈ p.min, v.toNat ≤ 165
  day      : ∀ v ∈ p.day, v.toNat ≤ 165
  month    : ∀ v ∈ p.month, v.toNat ≤ 85
  year     : ∀ v ∈ p.year, 1900 ≤ v.toNat ∧ v.toNat ≤ 2165
  h24      : p.hrTag = some .h24 → ∀ v ∈ p.hrVal, v.toNat ≤ 45
  am       : p.hrTag = some .am → ∀ v ∈ p.hrVal, v.toNat ≤ 25
  pm       : p.hrTag = some .pm → ∀ v ∈ p.hrVal, v.toNat ≤ 25
  hours    : p.hrTag.isSome = p.hrVal.isSome
  dowValid : p.dowValid = p.dow.map (· != .unknown)

/-- What holds at reset and after every step. -/
structure State.Inv (s : State) : Prop where
  started : s.started
  ports   : s.out.InRange

/-- `S` is the same in both states, and so is what is still to be presented: all a codec operation leaves unchanged. -/
def State.sameExceptPorts (s t : State) : Prop :=
  t.uf = s.uf ∧ t.tip = s.tip ∧ t.run = s.run ∧ t.inputs = s.inputs

/-- The decode and encode operations (40_decode.md R69, 41_encode.md R85). -/
def isCodec : Instr → Bool
  | .decSec _ => true
  | .decMin _ => true
  | .decHour _ => true
  | .decDow _ => true
  | .decDay _ => true
  | .decMon _ => true
  | .decYear _ => true
  | .decode _ => true
  | .encSec _ => true
  | .encMin _ => true
  | .encHour _ _ => true
  | .encDow _ => true
  | .encDay _ => true
  | .encMon _ _ => true
  | .encYear _ => true
  | .poll => false
  | .tick => false
  | .init => false
  | .fire => false

/-- The result ports by name (30_encoding.md R54, R59). -/
inductive PortName where
  | sec
  | min
  | hrTag
  | hrVal
  | dow
  | dowValid
  | day
  | month
  | year
  | q
  | due
  deriving DecidableEq, Repr

/-- Whether a port is driven. -/
def Ports.driven (p : Ports) : PortName → Bool
  | .sec => p.sec.isSome
  | .min => p.min.isSome
  | .hrTag => p.hrTag.isSome
  | .hrVal => p.hrVal.isSome
  | .dow => p.dow.isSome
  | .dowValid => p.dowValid.isSome
  | .day => p.day.isSome
  | .month => p.month.isSome
  | .year => p.year.isSome
  | .q => p.q.isSome
  | .due => p.due.isSome

/-- The result-port column of the operation map (R59, R67). -/
def listedPorts : Instr → List PortName
  | .decSec _ => [.sec]
  | .decMin _ => [.min]
  | .decHour _ => [.hrTag, .hrVal]
  | .decDow _ => [.dow, .dowValid]
  | .decDay _ => [.day]
  | .decMon _ => [.month]
  | .decYear _ => [.year]
  | .decode _ => [.sec, .min, .hrTag, .hrVal, .dow, .dowValid, .day, .month, .year]
  | .encSec _ => [.q]
  | .encMin _ => [.q]
  | .encHour _ _ => [.q]
  | .encDow _ => [.q]
  | .encDay _ => [.q]
  | .encMon _ _ => [.q]
  | .encYear _ => [.q]
  | .poll => [.due]
  | .tick => []
  | .init => []
  | .fire => []

/-- The tighter reading of delivery (42_scheduler.md R110; log 14), from a point of a sequence where `polls` says how many POLLs have come since the oldest
firing not yet serviced (`none`: no firing waits): at most one may come before its TICK. -/
def tightFrom : Option Nat → List Instr → Bool
  | _, [] => true
  | polls, i :: is =>
    match i, polls with
    | .fire, none => tightFrom (some 0) is
    | .tick, _ => tightFrom none is
    | .poll, some n => n == 0 && tightFrom (some (n + 1)) is
    | _, _ => tightFrom polls is

/-- A sequence in which at most one POLL is ordered between a FIRE and its TICK (R110), starting with no firing waiting. -/
def tightDelivery (is : List Instr) : Bool := tightFrom none is

/-! ### Infinite runs and fairness (70_reset_and_hazards.md R149), premises of liveness claims only -/

/-- An unending run: `op n` takes the state `st n` to the next (R150: TCUS has no halt). -/
def IsRun (st : Nat → State) (op : Nat → Instr) : Prop := ∀ n, exec (op n) (st n) = .next (st (n + 1))

/-- R149 (i): an enabled TICK is eventually taken (42_scheduler.md R109; log 14). -/
def TickIsFair (st : Nat → State) (op : Nat → Instr) : Prop := ∀ n, (st n).tip = true → ∃ m, n ≤ m ∧ op m = .tick

/-- R149 (ii): once the timer is started, it fires again and again. -/
def FireIsFair (st : Nat → State) (op : Nat → Instr) : Prop := ∀ n, (st n).run = true → ∃ m, n ≤ m ∧ op m = .fire

end Sys2Proof.Machine
end

