-- ==== Sys2Proof/Certificates/Slice0/Obligations.lean ====
section
/-! DEFINITION. The statements about TCUS, for the provers. Each docstring names the rule of spec/ it formalises; "log n" is a decision of the
model (notes/assumptions/n.md), "D n" a decision the spec marks as its own. A command code (D3) is stated where the operation's rule gives it. TCUS has no memory (R31), so no statement speaks of memory, and
`next { s with out := … }` is a whole frame: every state bit and what is still to be presented are as before. -/

open Sys2Proof Sys2Proof.Machine

/-! ### Encoding -/

/-- Decode and encode agree on every well-formed operation, with every operand at every value (the command codes and the bus layout are the
spec's own, D3 and D4). -/
def Obligations.EncodedOperationDecodesToItself : Prop :=
  ∀ i : Instr, i.wf = true → decode (encode i) = .ok i

/-- The other direction: a word that decodes gives a well-formed operation, whose encoding is the word with every ignored bit cleared (D3, D4,
D14). -/
def Obligations.DecodedWordIsItsOperandBits : Prop :=
  ∀ (w : BusWord) (i : Instr), decode w = .ok i →
    i.wf = true ∧ encode i = ⟨w.cmd, w.a &&& operandMask w.cmd⟩

/-- Words written out from the operation map and the operand bus, and the operations they name. The operand words are those of 95_test_vectors.md
P1, P2 and P5. -/
def Obligations.SampleWordsDecode : Prop :=
  decode ⟨0b00111#5, 0x23891503624530#56⟩ = .ok (.decode ⟨0x30, 0x45, 0x62, 0x03, 0x15, 0x89, 0x23⟩) ∧
  decode ⟨0b00010#5, 0x00000000E20000#56⟩ = .ok (.decHour ⟨0x00, 0x00, 0xE2, 0x00, 0x00, 0x00, 0x00⟩) ∧
  decode ⟨0b01010#5, 0x00000000000202#56⟩ = .ok (.encHour (.valid .pm) 2) ∧
  decode ⟨0b01101#5, 0x00000007E70009#56⟩ = .ok (.encMon 9 2023) ∧
  decode ⟨0b01110#5, 0x00000007E70000#56⟩ = .ok (.encYear 2023) ∧
  decode ⟨0b10000#5, 0#56⟩ = .ok .poll ∧ decode ⟨0b10001#5, 0#56⟩ = .ok .tick ∧
  decode ⟨0b10010#5, 0#56⟩ = .ok .init ∧ decode ⟨0b10011#5, 0#56⟩ = .ok .fire

/-- The reserved command codes are exactly 15 and 20 to 31, and a step on one is refused by name, whoever presents it (D14; log 5). -/
def Obligations.ReservedCommandCodesAreRefused : Prop :=
  (∀ w : BusWord, decode w = .error (.reservedCommand w.cmd) ↔ w.cmd.toNat = 15 ∨ 20 ≤ w.cmd.toNat) ∧
  ∀ (s : State) (agent : Agent) (w : BusWord) (rest : List Input), s.inputs = .op agent w :: rest →
    (w.cmd.toNat = 15 ∨ 20 ≤ w.cmd.toNat) → step s = .refused (.reservedCommand w.cmd)

/-- Tag code 3 on ENC.HOUR is refused, as a word and as an operation; operand bits that R58 marks ignored have no effect on a step, whatever
their value (D14; log 5). -/
def Obligations.ReservedTagRefusedAndIgnoredBitsIgnored : Prop :=
  (∀ (v : Byte) (s : State), exec (.encHour .reserved v) s = .refused .reservedTag) ∧
  (∀ (s : State) (agent : Agent) (w : BusWord) (rest : List Input), s.inputs = .op agent w :: rest →
    w.cmd = 10#5 → w.a.getLsbD 8 = true → w.a.getLsbD 9 = true → step s = .refused .reservedTag) ∧
  (∀ (s : State) (agent : Agent) (cmd : Cmd) (a b : OperandBus) (rest : List Input),
    a &&& operandMask cmd = b &&& operandMask cmd →
    step { s with inputs := .op agent ⟨cmd, a⟩ :: rest } = step { s with inputs := .op agent ⟨cmd, b⟩ :: rest })

/-! ### Steps and the outside world -/

/-- A step runs the operation presented, at the state with the rest still to be presented, when its agent may issue it: the interrupt context TICK,
the timer FIRE, the main context everything else (that inputs are a list is the model's choice, log 1). -/
def Obligations.StepRunsThePresentedOperation : Prop :=
  ∀ (s : State) (agent : Agent) (w : BusWord) (rest : List Input) (i : Instr),
    s.inputs = .op agent w :: rest → decode w = .ok i →
    (i = .tick → agent = .interrupt) → (i = .fire → agent = .timer) → (i ≠ .tick → i ≠ .fire → agent = .main) →
    step s = exec i { s with inputs := rest }

/-- An operation presented by any other agent is refused (D24; log 6). -/
def Obligations.WrongContextIsRefused : Prop :=
  ∀ (s : State) (agent : Agent) (w : BusWord) (rest : List Input) (i : Instr),
    s.inputs = .op agent w :: rest → decode w = .ok i →
    ((i = .tick ∧ agent ≠ .interrupt) ∨ (i = .fire ∧ agent ≠ .timer) ∨ (i ≠ .tick ∧ i ≠ .fire ∧ agent ≠ .main)) →
    step s = .refused (.wrongContext agent)

/-- The model's own treatment of what is no operation: with nothing presented S is kept and no port driven (log 3), a bus fault or processor fault ends
the run (D23; log 11), and after a power cycle S is at reset (log 21). -/
def Obligations.StepOnWhatIsNoOperation : Prop :=
  ∀ (s : State) (rest : List Input),
    (s.inputs = [] → step s = .next { s with out := Ports.undriven }) ∧
    (s.inputs = .busFault :: rest → step s = .fault .busTransaction) ∧
    (s.inputs = .processorFault :: rest → step s = .fault .processor) ∧
    (s.inputs = .powerCycle :: rest → step s = .next { State.reset with inputs := rest })

/-- Result ports are not state: no step depends on what the ports hold (the model keeps them in State all the same, log 2). -/
def Obligations.NoStepReadsTheResultPorts : Prop :=
  ∀ (s : State) (p : Ports), step { s with out := p } = step s

/-- The main loop's turn (the environment's; log 22): when POLL answered due, the snapshot it read is decoded by the next step, and a failed read ends the
run with a fault (D23; log 11); when not due, nothing is presented whatever a read would answer, so the next step is the model's idle step (log 3). -/
def Obligations.DueTurnDecodesTheSnapshot : Prop :=
  ∀ (s : State) (raw : RawSnapshot) (read : BusRead),
    step { s with inputs := afterPoll true (.bytes raw) } = exec (.decode raw) { s with inputs := [] } ∧
    step { s with inputs := afterPoll true .fatal } = .fault .busTransaction ∧
    step { s with inputs := afterPoll false read } = .next { s with inputs := [], out := Ports.undriven }

/-! ### Decode unit -/

/-- R70, R71, R74: DEC.SEC, DEC.MIN and DEC.DAY give units + 10 × tens of their own byte, never failing, and change nothing else. -/
def Obligations.TwoDigitFieldsDecodeAsPackedBcd : Prop :=
  ∀ (raw : RawSnapshot) (s : State),
    (∃ v : Byte, exec (.decSec raw) s = .next { s with out := { Ports.undriven with sec := some v } } ∧
      v.toNat = raw.sec.toNat % 16 + 10 * (raw.sec.toNat / 16) ∧ (encode (.decSec raw)).cmd = 0#5) ∧
    (∃ v : Byte, exec (.decMin raw) s = .next { s with out := { Ports.undriven with min := some v } } ∧
      v.toNat = raw.min.toNat % 16 + 10 * (raw.min.toNat / 16) ∧ (encode (.decMin raw)).cmd = 1#5) ∧
    (∃ v : Byte, exec (.decDay raw) s = .next { s with out := { Ports.undriven with day := some v } } ∧
      v.toNat = raw.day.toNat % 16 + 10 * (raw.day.toNat / 16) ∧ (encode (.decDay raw)).cmd = 4#5)

/-- DEC.HOUR: bit 6 selects 12-hour mode, where bit 5 is PM and bit 4 adds 10; in 24-hour mode bits 5:4 are the tens digit. Bit 7 is ignored (D9) and a
units nibble above 9 counts as it stands (D10; log 10). -/
def Obligations.HoursDecodeByTheModeBit : Prop :=
  ∀ (raw : RawSnapshot) (s : State), ∃ (tag : HourTag) (v : Byte),
    exec (.decHour raw) s = .next { s with out := { Ports.undriven with hrTag := some tag, hrVal := some v } } ∧
    (raw.hour.toNat / 64 % 2 = 1 → raw.hour.toNat / 32 % 2 = 1 → tag = .pm) ∧
    (raw.hour.toNat / 64 % 2 = 1 → raw.hour.toNat / 32 % 2 = 0 → tag = .am) ∧
    (raw.hour.toNat / 64 % 2 = 1 → v.toNat = raw.hour.toNat % 16 + 10 * (raw.hour.toNat / 16 % 2)) ∧
    (raw.hour.toNat / 64 % 2 = 0 → tag = .h24 ∧ v.toNat = raw.hour.toNat % 16 + 10 * (raw.hour.toNat / 16 % 4))

/-- R75: an index 1 to 7 gives the day of the week with code index - 1 and dow_valid = 1; 0 and 8 to 255 give unknown, code 7, and dow_valid = 0. -/
def Obligations.DayOfWeekIndexIsMapped : Prop :=
  ∀ (raw : RawSnapshot) (s : State), ∃ (d : Dow) (valid : Bool),
    exec (.decDow raw) s = .next { s with out := { Ports.undriven with dow := some d, dowValid := some valid } } ∧
    (1 ≤ raw.dow.toNat ∧ raw.dow.toNat ≤ 7 → valid = true ∧ (dowCode d).toNat = raw.dow.toNat - 1) ∧
    (raw.dow.toNat = 0 ∨ 8 ≤ raw.dow.toNat → valid = false ∧ d = .unknown ∧ dowCode d = 7#3) ∧
    (encode (.decDow raw)).cmd = 3#5

/-- R76: the month is the packed BCD of the month byte with the century bit masked out. -/
def Obligations.MonthDecodesWithoutTheCenturyBit : Prop :=
  ∀ (raw : RawSnapshot) (s : State), ∃ v : Byte,
    exec (.decMon raw) s = .next { s with out := { Ports.undriven with month := some v } } ∧
    v.toNat = raw.mon.toNat % 16 + 10 * (raw.mon.toNat / 16 % 8) ∧ (encode (.decMon raw)).cmd = 5#5

/-- DEC.YEAR: 2000 or 1900 by the century bit, plus the packed BCD of the year byte, without wrap in 16 bits (the width is D13; log 18). -/
def Obligations.YearDecodesByTheCenturyBit : Prop :=
  ∀ (raw : RawSnapshot) (s : State), ∃ v : Year,
    exec (.decYear raw) s = .next { s with out := { Ports.undriven with year := some v } } ∧
    (128 ≤ raw.mon.toNat → v.toNat = 2000 + (raw.year.toNat % 16 + 10 * (raw.year.toNat / 16))) ∧
    (raw.mon.toNat < 128 → v.toNat = 1900 + (raw.year.toNat % 16 + 10 * (raw.year.toNat / 16)))

/-- R78: DECODE returns together what the seven field decoders return on the same snapshot, and no field's result depends on another field's byte, except that
month and year read disjoint bits of byte 5. -/
def Obligations.WholeDecodeIsTheSevenFieldDecoders : Prop :=
  (∀ (raw : RawSnapshot) (s : State), ∃ t0 t1 t2 t3 t4 t5 t6 : State,
    exec (.decSec raw) s = .next t0 ∧ exec (.decMin raw) s = .next t1 ∧ exec (.decHour raw) s = .next t2 ∧
    exec (.decDow raw) s = .next t3 ∧ exec (.decDay raw) s = .next t4 ∧ exec (.decMon raw) s = .next t5 ∧
    exec (.decYear raw) s = .next t6 ∧
    exec (.decode raw) s = .next { s with out := { Ports.undriven with
      sec := t0.out.sec, min := t1.out.min, hrTag := t2.out.hrTag, hrVal := t2.out.hrVal, dow := t3.out.dow,
      dowValid := t3.out.dowValid, day := t4.out.day, month := t5.out.month, year := t6.out.year } } ∧
    (encode (.decode raw)).cmd = 7#5) ∧
  ∀ (raw raw' : RawSnapshot) (s : State), ∃ t t' : State,
    exec (.decode raw) s = .next t ∧ exec (.decode raw') s = .next t' ∧
    (raw.sec = raw'.sec → t.out.sec = t'.out.sec) ∧ (raw.min = raw'.min → t.out.min = t'.out.min) ∧
    (raw.hour = raw'.hour → t.out.hrTag = t'.out.hrTag ∧ t.out.hrVal = t'.out.hrVal) ∧
    (raw.dow = raw'.dow → t.out.dow = t'.out.dow ∧ t.out.dowValid = t'.out.dowValid) ∧
    (raw.day = raw'.day → t.out.day = t'.out.day) ∧
    (raw.mon &&& 0x7F#8 = raw'.mon &&& 0x7F#8 → t.out.month = t'.out.month) ∧
    (raw.mon &&& 0x80#8 = raw'.mon &&& 0x80#8 → raw.year = raw'.year → t.out.year = t'.out.year)

/-- Exactly one raw bit has no effect on any decode result: bit 7 of the hours byte (an inference of the spec from R46, R47, R50, R51; D8, D9). -/
def Obligations.OnlyHoursBit7IsUnread : Prop :=
  ∀ (r : Reg) (j : Nat), j < 8 →
    ((∀ (raw : RawSnapshot) (s : State),
        exec (.decode (setRawByte raw r (rawByte raw r ^^^ (1#8 <<< j)))) s = exec (.decode raw) s) ↔
      r = .hour ∧ j = 7)

/-! ### Encode unit -/

/-- R86, R87, R90: ENC.SEC, ENC.MIN and ENC.DAY give the units digit in the low nibble and the tens digit, masked to 4 bits, in the high nibble. -/
def Obligations.TwoDigitFieldsEncodeAsPackedBcd : Prop :=
  ∀ (v : Byte) (s : State),
    (∃ q : Byte, exec (.encSec v) s = .next { s with out := { Ports.undriven with q := some q } } ∧
      q.toNat = 16 * (v.toNat / 10 % 16) + v.toNat % 10 ∧ (encode (.encSec v)).cmd = 8#5) ∧
    (∃ q : Byte, exec (.encMin v) s = .next { s with out := { Ports.undriven with q := some q } } ∧
      q.toNat = 16 * (v.toNat / 10 % 16) + v.toNat % 10 ∧ (encode (.encMin v)).cmd = 9#5) ∧
    (∃ q : Byte, exec (.encDay v) s = .next { s with out := { Ports.undriven with q := some q } } ∧
      q.toNat = 16 * (v.toNat / 10 % 16) + v.toNat % 10 ∧ (encode (.encDay v)).cmd = 12#5)

/-- ENC.HOUR: the value plus 0, 40 or 60 by its tag, in 8 bits (the width of the wrap is D11; log 8), then packed. -/
def Obligations.HoursEncodeWithTheTagOffset : Prop :=
  ∀ (tag : HourTag) (v : Byte) (s : State), ∃ (q : Byte) (sum : Nat),
    exec (.encHour (.valid tag) v) s = .next { s with out := { Ports.undriven with q := some q } } ∧
    (tag = .h24 → sum = v.toNat) ∧ (tag = .am → sum = (v.toNat + 40) % 256) ∧ (tag = .pm → sum = (v.toNat + 60) % 256) ∧
    q.toNat = 16 * (sum / 10 % 16) + sum % 10

/-- ENC.DOW: the 0-based index plus 1, not packed (D12; log 9). -/
def Obligations.DayOfWeekEncodesAsIndexPlusOne : Prop :=
  ∀ (idx : Byte) (s : State), ∃ q : Byte,
    exec (.encDow idx) s = .next { s with out := { Ports.undriven with q := some q } } ∧
    (idx.toNat < 255 → q.toNat = idx.toNat + 1) ∧ (idx.toNat = 255 → q = 0#8)

/-- ENC.MON: 80 is added to the month when the year is 2000 or later, in 8 bits (D11; log 8), then packed. -/
def Obligations.MonthEncodesWithTheCenturyOffset : Prop :=
  ∀ (month : Byte) (year : Year) (s : State), ∃ (q : Byte) (sum : Nat),
    exec (.encMon month year) s = .next { s with out := { Ports.undriven with q := some q } } ∧
    (2000 ≤ year.toNat → sum = (month.toNat + 80) % 256) ∧ (year.toNat < 2000 → sum = month.toNat) ∧
    q.toNat = 16 * (sum / 10 % 16) + sum % 10

/-- R92: ENC.YEAR packs the year modulo 100, so both nibbles are decimal digits. -/
def Obligations.YearEncodesModulo100 : Prop :=
  ∀ (year : Year) (s : State), ∃ q : Byte,
    exec (.encYear year) s = .next { s with out := { Ports.undriven with q := some q } } ∧
    q.toNat = 16 * (year.toNat % 100 / 10) + year.toNat % 10 ∧ (encode (.encYear year)).cmd = 14#5

/-! ### The codec as a whole -/

/-- A decode operation is a pure, total function of its snapshot, reads and writes no state bit, may be issued by the main context alone (another presenter is
refused: D24, log 6), and commutes with every operation of every agent. -/
def Obligations.DecodeOperationsArePureAndCommute : Prop :=
  ∀ i : Instr, isCodec i = true → (encode i).cmd.toNat < 8 →
    (∃ p : Ports, ∀ s : State, exec i s = .next { s with out := p }) ∧
    (∀ (s : State) (agent : Agent) (w : BusWord) (rest : List Input),
      s.inputs = .op agent w :: rest → decode w = .ok i → agent ≠ .main → step s = .refused (.wrongContext agent)) ∧
    (∀ (j : Instr) (s t u : State), exec i s = .next t → exec j s = .next u →
      exec j t = .next u ∧ exec i u = .next { u with out := t.out })

/-- The same of the encode operations, whose one result is the byte `q`, with the tag operand one of the three tags (the reserved tag: D14; another
presenter: D24). -/
def Obligations.EncodeOperationsArePureAndCommute : Prop :=
  ∀ i : Instr, isCodec i = true → 8 ≤ (encode i).cmd.toNat → i.wf = true →
    (∃ q : Byte, ∀ s : State, exec i s = .next { s with out := { Ports.undriven with q := some q } }) ∧
    (∀ (s : State) (agent : Agent) (w : BusWord) (rest : List Input),
      s.inputs = .op agent w :: rest → decode w = .ok i → agent ≠ .main → step s = .refused (.wrongContext agent)) ∧
    (∀ (j : Instr) (s t u : State), exec i s = .next t → exec j s = .next u →
      exec j t = .next u ∧ exec i u = .next { u with out := t.out })

/-- R62: every value of every raw byte, of every 8-bit operand and of every year is accepted by every decode and encode operation and gives a result, and the
state bits are as before. -/
def Obligations.EveryOperandIsAccepted : Prop :=
  ∀ (i : Instr) (s : State), isCodec i = true → i.wf = true →
    ∃ t : State, exec i s = .next t ∧ s.sameExceptPorts t ∧ t.out ≠ Ports.undriven

/-- An operation drives the ports the operation map lists for it, and no other (the ports are the spec's own, D5; log 2). -/
def Obligations.OperationsDriveTheListedPorts : Prop :=
  ∀ (i : Instr) (s t : State) (n : PortName), exec i s = .next t → (t.out.driven n = true ↔ n ∈ listedPorts i)

/-- R15: a decode operation leaves S unchanged and remembers nothing: on the same seven bytes it returns the same results, whatever operations come in between. -/
def Obligations.DecodeRemembersNothing : Prop :=
  ∀ (i : Instr) (is : List Instr) (s t u : State) (ps : List Ports), isCodec i = true → (encode i).cmd.toNat < 8 →
    exec i s = .next t → execSeq is t = .next (u, ps) →
    s.sameExceptPorts t ∧ ∃ v, exec i u = .next v ∧ v.out = t.out ∧ u.sameExceptPorts v

/-- How far packing and unpacking two digits undo each other, through ENC.SEC and DEC.SEC (an inference of the spec from R52, R53, R70, R86). -/
def Obligations.TwoDigitRoundTripExtent : Prop :=
  (∀ (v : Byte) (raw : RawSnapshot) (s : State), ∃ q w : Byte,
    exec (.encSec v) s = .next { s with out := { Ports.undriven with q := some q } } ∧
    exec (.decSec { raw with sec := q }) s = .next { s with out := { Ports.undriven with sec := some w } } ∧
    (v.toNat ≤ 159 → w = v) ∧ (160 ≤ v.toNat → w.toNat = v.toNat - 160)) ∧
  ∀ (raw : RawSnapshot) (s : State), ∃ v q : Byte,
    exec (.decSec raw) s = .next { s with out := { Ports.undriven with sec := some v } } ∧
    exec (.encSec v) s = .next { s with out := { Ports.undriven with q := some q } } ∧
    (q = raw.sec ↔ raw.sec.toNat % 16 ≤ 9)

/-- DEC.HOUR after ENC.HOUR returns its operands exactly for H24 0 to 39, AM 0 to 19 and PM 0 to 19 (an inference of the spec; it rests on D9, D10 and D11). -/
def Obligations.HoursRoundTripExtent : Prop :=
  ∀ (tag : HourTag) (v : Byte) (raw : RawSnapshot) (s : State), ∃ (q : Byte) (tag' : HourTag) (v' : Byte),
    exec (.encHour (.valid tag) v) s = .next { s with out := { Ports.undriven with q := some q } } ∧
    exec (.decHour { raw with hour := q }) s =
      .next { s with out := { Ports.undriven with hrTag := some tag', hrVal := some v' } } ∧
    ((tag' = tag ∧ v' = v) ↔ v.toNat ≤ (if tag = .h24 then 39 else 19))

/-- DEC.DOW after ENC.DOW returns the index for 0 to 6 and unknown for every other (an inference of the spec; it rests on D8 and D12). -/
def Obligations.DayOfWeekRoundTripExtent : Prop :=
  ∀ (idx : Byte) (raw : RawSnapshot) (s : State), ∃ (q : Byte) (d : Dow) (valid : Bool),
    exec (.encDow idx) s = .next { s with out := { Ports.undriven with q := some q } } ∧
    exec (.decDow { raw with dow := q }) s =
      .next { s with out := { Ports.undriven with dow := some d, dowValid := some valid } } ∧
    (idx.toNat ≤ 6 → (dowCode d).toNat = idx.toNat ∧ valid = true) ∧ (7 ≤ idx.toNat → d = .unknown ∧ valid = false)

/-- DEC.MON and DEC.YEAR after ENC.YM: the month returns exactly for 0 to 79, and then the year is the century of the operand's side of 2000 plus its last
two digits, which is the operand itself exactly for 1900 to 2099 (an inference of the spec; it rests on D11 and D13). -/
def Obligations.MonthAndYearRoundTripExtent : Prop :=
  ∀ (month : Byte) (year : Year) (raw : RawSnapshot) (s : State), ∃ (u : State) (qm qy m : Byte) (y : Year),
    execSeq (encYM year month) s =
      .next (u, [{ Ports.undriven with q := some qm }, { Ports.undriven with q := some qy }]) ∧
    exec (.decMon { raw with mon := qm, year := qy }) u = .next { u with out := { Ports.undriven with month := some m } } ∧
    exec (.decYear { raw with mon := qm, year := qy }) u = .next { u with out := { Ports.undriven with year := some y } } ∧
    (m = month ↔ month.toNat ≤ 79) ∧
    (month.toNat ≤ 79 → 2000 ≤ year.toNat → y.toNat = 2000 + year.toNat % 100) ∧
    (month.toNat ≤ 79 → year.toNat < 2000 → y.toNat = 1900 + year.toNat % 100) ∧
    (month.toNat ≤ 79 → (y = year ↔ 1900 ≤ year.toNat ∧ year.toNat ≤ 2099))

/-- R95: the round trips the source states. (i) hours 0 to 23 and AM, PM 1 to 12; (ii) day-of-week index 0 to 6, and raw 0 is unknown; (iii) years 1900
to 2099 with any month operand 0 to 79. -/
def Obligations.DocumentedRoundTrips : Prop :=
  (∀ (tag : HourTag) (v : Byte) (raw : RawSnapshot) (s : State),
    ((tag = .h24 ∧ v.toNat ≤ 23) ∨ (tag ≠ .h24 ∧ 1 ≤ v.toNat ∧ v.toNat ≤ 12)) →
    ∃ q : Byte, exec (.encHour (.valid tag) v) s = .next { s with out := { Ports.undriven with q := some q } } ∧
      exec (.decHour { raw with hour := q }) s =
        .next { s with out := { Ports.undriven with hrTag := some tag, hrVal := some v } }) ∧
  (∀ (d : Dow) (raw : RawSnapshot) (s : State), d ≠ .unknown →
    ∃ q : Byte, exec (.encDow ((dowCode d).setWidth 8)) s = .next { s with out := { Ports.undriven with q := some q } } ∧
      exec (.decDow { raw with dow := q }) s =
        .next { s with out := { Ports.undriven with dow := some d, dowValid := some true } }) ∧
  (∀ (raw : RawSnapshot) (s : State), raw.dow = 0#8 →
    exec (.decDow raw) s = .next { s with out := { Ports.undriven with dow := some .unknown, dowValid := some false } }) ∧
  (∀ (month : Byte) (year : Year) (raw : RawSnapshot) (s : State),
    month.toNat ≤ 79 → 1900 ≤ year.toNat → year.toNat ≤ 2099 →
    ∃ (u : State) (qm qy : Byte),
      execSeq (encYM year month) s =
        .next (u, [{ Ports.undriven with q := some qm }, { Ports.undriven with q := some qy }]) ∧
      exec (.decYear { raw with mon := qm, year := qy }) u = .next { u with out := { Ports.undriven with year := some year } })

/-- Setting the clock and reading it back (pseudo-operation ENC.TIME, then DECODE of its seven bytes in their order) returns the Time that was encoded, for every
Time within the exact round-trip extents: an absent day of the week included (D7). -/
def Obligations.EncodedTimeDecodesToItself : Prop :=
  ∀ (t : Time) (s : State),
    t.sec.toNat ≤ 159 → t.min.toNat ≤ 159 → t.day.toNat ≤ 159 → t.month.toNat ≤ 79 →
    t.hrVal.toNat ≤ (if t.hrTag = .h24 then 39 else 19) → 1900 ≤ t.year.toNat → t.year.toNat ≤ 2099 →
    ∃ (u : State) (q0 q1 q2 q3 q4 q5 q6 : Byte),
      execSeq (encTime t) s = .next (u, [qPort q0, qPort q1, qPort q2, qPort q3, qPort q4, qPort q5, qPort q6]) ∧
      s.sameExceptPorts u ∧
      exec (.decode ⟨q0, q1, q2, q3, q4, q5, q6⟩) u = .next { u with out := timePorts t }

/-! ### Scheduler -/

/-- INIT sets RUN and nothing else, in every state (one step for the two actions, and idempotent: D19; log 17). -/
def Obligations.InitSetsRun : Prop :=
  ∀ s : State, exec .init s = .next { s with run := true, out := Ports.undriven } ∧ (encode .init).cmd = 18#5

/-- FIRE with RUN = 1 sets TIP and nothing else, whatever TIP was (D16; log 17); with RUN = 0 it has no step (log 4). -/
def Obligations.FireSetsTip : Prop :=
  ∀ s : State,
    (s.run = true → exec .fire s = .next { s with tip := true, out := Ports.undriven }) ∧
    (s.run = false → exec .fire s = .refused .fireNotEnabled) ∧ (encode .fire).cmd = 19#5

/-- TICK with TIP = 1 clears TIP and sets UF, whatever UF was, in one step; with TIP = 0 it is never taken (D17; log 4). -/
def Obligations.TickClearsTipAndSetsUf : Prop :=
  ∀ s : State,
    (s.tip = true → exec .tick s = .next { s with tip := false, uf := true, out := Ports.undriven }) ∧
    (s.tip = false → exec .tick s = .refused .tickNotEnabled) ∧ (encode .tick).cmd = 17#5

/-- R104: POLL answers the flag, clears it if it was set, writes nothing if it was clear, never waits, and neither reads nor writes TIP or RUN. -/
def Obligations.PollReadsAndClears : Prop :=
  ∀ s : State,
    (s.uf = true → exec .poll s = .next { s with uf := false, out := { Ports.undriven with due := some true } }) ∧
    (s.uf = false → exec .poll s = .next { s with out := { Ports.undriven with due := some false } }) ∧
    (encode .poll).cmd = 16#5

/-- R100: the two-state machine's transitions are exactly Idle to Pending by TICK and Pending to Idle by a POLL that reads 1; a TICK in Pending leaves Pending
and a POLL in Idle leaves Idle. -/
def Obligations.OnlyTickSetsAndOnlyPollClearsTheFlag : Prop :=
  ∀ (i : Instr) (s t : State), exec i s = .next t →
    (s.uf = false → t.uf = true → i = .tick) ∧
    (s.uf = true → t.uf = false → i = .poll ∧ t.out.due = some true) ∧
    (i = .tick → t.uf = true) ∧ (i = .poll → t.uf = false)

/-- R21, the access rights: who writes each state bit, and to what; and that no operation but POLL reads UF, none but TICK reads TIP, and none but FIRE reads
RUN (replacing the bit beforehand changes neither whether there is a step, nor a port, nor another bit). -/
def Obligations.AccessRightsOfTheStateBits : Prop :=
  (∀ (i : Instr) (s t : State), exec i s = .next t →
    (t.uf ≠ s.uf → i = .tick ∨ i = .poll) ∧ (t.tip ≠ s.tip → i = .fire ∨ i = .tick) ∧ (t.run ≠ s.run → i = .init) ∧
    (i = .fire → t.tip = true) ∧ (i = .tick → t.tip = false ∧ t.uf = true) ∧
    (i = .poll → t.uf = false ∧ t.out.due = some s.uf) ∧ (i = .init → t.run = true)) ∧
  (∀ (i : Instr) (s t : State) (b : Bool), exec i s = .next t → i ≠ .poll →
    ∃ t', exec i { s with uf := b } = .next t' ∧ t'.out = t.out ∧ t'.tip = t.tip ∧ t'.run = t.run) ∧
  (∀ (i : Instr) (s t : State) (b : Bool), exec i s = .next t → i ≠ .tick →
    ∃ t', exec i { s with tip := b } = .next t' ∧ t'.out = t.out ∧ t'.uf = t.uf ∧ t'.run = t.run) ∧
  (∀ (i : Instr) (s t : State) (b : Bool), exec i s = .next t → i ≠ .fire →
    ∃ t', exec i { s with run := b } = .next t' ∧ t'.out = t.out ∧ t'.uf = t.uf ∧ t'.tip = t.tip)

/-- R106, coalescing. After any operations with a TICK and no POLL among them UF is 1, the first POLL answers 1 and the next 0; between two POLLs that both
answer 1 there is a TICK; and the state after N firings, each serviced, is the same for every N of at least 1, so their number is not recoverable. -/
def Obligations.TicksCoalesceUntilPolled : Prop :=
  (∀ (is : List Instr) (s u : State) (ps : List Ports), execSeq is s = .next (u, ps) → .tick ∈ is → .poll ∉ is →
    u.uf = true ∧ ∃ v w, exec .poll u = .next v ∧ v.out.due = some true ∧ exec .poll v = .next w ∧ w.out.due = some false) ∧
  (∀ (is : List Instr) (s t u v : State) (ps : List Ports), exec .poll s = .next t →
    execSeq is t = .next (u, ps) → .tick ∉ is → exec .poll u = .next v → v.out.due = some false) ∧
  (∀ (n : Nat) (s : State), s.run = true → 1 ≤ n →
    ∃ ps, execSeq (List.replicate n service).flatten s =
      .next ({ s with uf := true, tip := false, out := Ports.undriven }, ps))

/-- Nothing but TICK disables TICK: while TIP is 1, any operations without a TICK leave it 1, so TICK can still be taken (D17; log 14). -/
def Obligations.PendingFiringWaitsForItsTick : Prop :=
  ∀ (is : List Instr) (s t : State) (ps : List Ports), s.tip = true → execSeq is s = .next (t, ps) → .tick ∉ is →
    t.tip = true ∧ ∃ u, exec .tick t = .next u ∧ u.uf = true

/-- TICK and POLL requested together may come in either order, and neither order loses the tick (D18; log 15). -/
def Obligations.TickAndPollInEitherOrder : Prop :=
  ∀ s : State, s.tip = true →
    execSeq [.tick, .poll] s = .next ({ s with tip := false, uf := false, out := duePort true }, [Ports.undriven, duePort true]) ∧
    execSeq [.poll, .tick] s = .next ({ s with tip := false, uf := true, out := Ports.undriven }, [duePort s.uf, Ports.undriven])

/-- Under the tighter delivery that the spec infers and lets a model adopt, two POLLs after a firing are enough for one of them to answer 1 (log 14). -/
def Obligations.TightDeliveryAnswersWithinTwoPolls : Prop :=
  ∀ (is : List Instr) (s t : State) (ps : List Ports), execSeq (.fire :: is) s = .next (t, ps) →
    tightDelivery (.fire :: is) = true → 2 ≤ is.count .poll → ∃ p ∈ ps, p.due = some true

/-- A refresh is never skipped for ever: in an unending run that is fair to TICK and FIRE and goes on polling, a started timer leads, from every point on, to a POLL
that answers 1 (fairness is D17; log 14). -/
def Obligations.RefreshIsNeverSkippedForever : Prop :=
  ∀ (st : Nat → State) (op : Nat → Instr), IsRun st op → TickIsFair st op → FireIsFair st op →
    (∀ n, ∃ m, n ≤ m ∧ op m = .poll) → ∀ n, (st n).run = true →
    ∃ m, n ≤ m ∧ op m = .poll ∧ (st (m + 1)).out.due = some true

/-! ### Reset, invariants, faults -/

/-- The state after reset: S = (0, 0, 0), no port driven, nothing presented, and the invariant holds (TIP and RUN are 0 by D15, log 7; the empty list of
inputs is the model's choice, log 1). -/
def Obligations.ResetIsIdleAndMeetsTheInvariant : Prop :=
  State.reset = { uf := false, tip := false, run := false, out := Ports.undriven, inputs := [] } ∧ State.reset.Inv

/-- Every step, whatever is presented, keeps the invariant: TIP = 1 or UF = 1 implies RUN = 1, and every driven port is within its full range with `dow_valid` telling
whether `dow` is known (an inference of the spec, R27, R54, R79). -/
def Obligations.StepKeepsTheInvariant : Prop :=
  ∀ s t : State, s.Inv → step s = .next t → t.Inv

/-- Before INIT nothing is ever due: from reset, operations without an INIT leave S = (0, 0, 0), contain neither FIRE nor TICK, and every POLL answers 0 (D15, D19;
logs 7, 17). -/
def Obligations.NothingIsDueBeforeInit : Prop :=
  ∀ (is : List Instr) (u : State) (ps : List Ports), execSeq is State.reset = .next (u, ps) → .init ∉ is →
    u.uf = false ∧ u.tip = false ∧ u.run = false ∧ .fire ∉ is ∧ .tick ∉ is ∧ ∀ p ∈ ps, p.due ≠ some true

/-- R116: no operation raises a fault, for any operand, in any state, nor does a step on anything an agent presents. Well-formed codec operations (all but
ENC.HOUR with the reserved tag, which is refused; log 5), INIT and POLL complete in every state; TICK and FIRE in every state in which R103 and R102 enable
them (log 4). -/
def Obligations.NoOperationRaisesAFault : Prop :=
  (∀ (i : Instr) (s : State) (f : Fault), exec i s ≠ .fault f) ∧
  (∀ (s : State) (agent : Agent) (w : BusWord) (rest : List Input) (f : Fault),
    s.inputs = .op agent w :: rest → step s ≠ .fault f) ∧
  (∀ (i : Instr) (s : State), i.wf = true → i ≠ .tick → i ≠ .fire → ∃ t, exec i s = .next t) ∧
  (∀ s : State, s.tip = true → ∃ t, exec .tick s = .next t) ∧
  (∀ s : State, s.run = true → ∃ t, exec .fire s = .next t)
end

