-- ==== Sys2Proof/Laws/State.lean ====
section
/-! SUPPORT. One lemma for each field of State under each update, so that no proof unfolds a record update. -/

namespace Sys2Proof.Machine

@[simp] theorem State.setUf_uf (s : State) : s.setUf.uf = true := rfl
@[simp] theorem State.setUf_tip (s : State) : s.setUf.tip = s.tip := rfl
@[simp] theorem State.setUf_run (s : State) : s.setUf.run = s.run := rfl
@[simp] theorem State.setUf_out (s : State) : s.setUf.out = s.out := rfl
@[simp] theorem State.setUf_inputs (s : State) : s.setUf.inputs = s.inputs := rfl

@[simp] theorem State.clearUf_uf (s : State) : s.clearUf.uf = false := rfl
@[simp] theorem State.clearUf_tip (s : State) : s.clearUf.tip = s.tip := rfl
@[simp] theorem State.clearUf_run (s : State) : s.clearUf.run = s.run := rfl
@[simp] theorem State.clearUf_out (s : State) : s.clearUf.out = s.out := rfl
@[simp] theorem State.clearUf_inputs (s : State) : s.clearUf.inputs = s.inputs := rfl

@[simp] theorem State.setTip_uf (s : State) : s.setTip.uf = s.uf := rfl
@[simp] theorem State.setTip_tip (s : State) : s.setTip.tip = true := rfl
@[simp] theorem State.setTip_run (s : State) : s.setTip.run = s.run := rfl
@[simp] theorem State.setTip_out (s : State) : s.setTip.out = s.out := rfl
@[simp] theorem State.setTip_inputs (s : State) : s.setTip.inputs = s.inputs := rfl

@[simp] theorem State.clearTip_uf (s : State) : s.clearTip.uf = s.uf := rfl
@[simp] theorem State.clearTip_tip (s : State) : s.clearTip.tip = false := rfl
@[simp] theorem State.clearTip_run (s : State) : s.clearTip.run = s.run := rfl
@[simp] theorem State.clearTip_out (s : State) : s.clearTip.out = s.out := rfl
@[simp] theorem State.clearTip_inputs (s : State) : s.clearTip.inputs = s.inputs := rfl

@[simp] theorem State.setRun_uf (s : State) : s.setRun.uf = s.uf := rfl
@[simp] theorem State.setRun_tip (s : State) : s.setRun.tip = s.tip := rfl
@[simp] theorem State.setRun_run (s : State) : s.setRun.run = true := rfl
@[simp] theorem State.setRun_out (s : State) : s.setRun.out = s.out := rfl
@[simp] theorem State.setRun_inputs (s : State) : s.setRun.inputs = s.inputs := rfl

@[simp] theorem State.drive_uf (p : Ports) (s : State) : (s.drive p).uf = s.uf := rfl
@[simp] theorem State.drive_tip (p : Ports) (s : State) : (s.drive p).tip = s.tip := rfl
@[simp] theorem State.drive_run (p : Ports) (s : State) : (s.drive p).run = s.run := rfl
@[simp] theorem State.drive_out (p : Ports) (s : State) : (s.drive p).out = p := rfl
@[simp] theorem State.drive_inputs (p : Ports) (s : State) : (s.drive p).inputs = s.inputs := rfl

@[simp] theorem State.reset_uf : State.reset.uf = false := rfl
@[simp] theorem State.reset_tip : State.reset.tip = false := rfl
@[simp] theorem State.reset_run : State.reset.run = false := rfl
@[simp] theorem State.reset_out : State.reset.out = Ports.undriven := rfl
@[simp] theorem State.reset_inputs : State.reset.inputs = [] := rfl

@[simp] theorem State.withFetchWord_inputs (s : State) (nbits w : Nat) :
    (s.withFetchWord nbits w).inputs = presentWord (busWordOfTable nbits w) :: s.inputs := rfl

/-- Two states agree when their five fields do. -/
theorem State.eq_of_fields {s t : State} (uf : s.uf = t.uf) (tip : s.tip = t.tip) (run : s.run = t.run)
    (out : s.out = t.out) (inputs : s.inputs = t.inputs) : s = t := by
  cases s; cases t; simp_all

/-- Clearing a flag that is already clear changes nothing: a POLL that reads 0 performs no write (R104). -/
theorem State.clearUf_of_idle {s : State} (h : s.uf = false) : s.clearUf = s :=
  State.eq_of_fields h.symm rfl rfl rfl rfl

/-! ### The port records of the operations -/

@[simp] theorem qPort_q (b : Byte) : (qPort b).q = some b := rfl
@[simp] theorem qPort_due (b : Byte) : (qPort b).due = none := rfl
@[simp] theorem duePort_due (d : Bool) : (duePort d).due = some d := rfl
@[simp] theorem duePort_q (d : Bool) : (duePort d).q = none := rfl
@[simp] theorem undriven_due : Ports.undriven.due = none := rfl
@[simp] theorem undriven_q : Ports.undriven.q = none := rfl

/-- No port driven is in range. -/
theorem undriven_inRange : Ports.undriven.InRange := by
  constructor <;> simp [Ports.undriven]

end Sys2Proof.Machine
end

