-- ==== Sys2Proof/Laws/Codec.lean ====
section
/-! SUPPORT. The codec's functions in natural-number arithmetic: one lemma for each (40_decode.md R79, 41_encode.md R97). -/

namespace Sys2Proof.Machine

theorem unitsDigit_eq (b : Byte) : unitsDigit b = b.toNat % 16 := by
  simp [unitsDigit, BitVec.extractLsb'_toNat]

theorem tensDigit_eq (b : Byte) : tensDigit b = b.toNat / 16 := by
  have := b.isLt
  simp only [tensDigit, BitVec.extractLsb'_toNat, Nat.shiftRight_eq_div_pow]
  omega

/-- bcd8 never wraps (R52). -/
theorem bcd8_toNat (b : Byte) : (bcd8 b).toNat = b.toNat % 16 + 10 * (b.toNat / 16) := by
  have := b.isLt
  simp only [bcd8, unitsDigit_eq, tensDigit_eq, BitVec.toNat_ofNat]
  omega

theorem bcd8_le (b : Byte) : (bcd8 b).toNat ≤ 165 := by
  have := b.isLt
  rw [bcd8_toNat]; omega

/-- The high nibble of pack8 is the tens digit modulo 16, the low nibble the units digit (R53). -/
theorem pack8_toNat (v : Byte) : (pack8 v).toNat = 16 * (v.toNat / 10 % 16) + v.toNat % 10 := by
  simp only [pack8, BitVec.toNat_ofNat]
  omega

theorem getLsbD_eq_div (b : Byte) (i : Nat) : b.getLsbD i = (b.toNat / 2 ^ i % 2 == 1) := by
  rw [BitVec.getLsbD, Nat.testBit_eq_decide_div_mod_eq, Bool.beq_eq_decide_eq]

theorem mode12_eq (b : Byte) : mode12 b = (b.toNat / 64 % 2 == 1) := getLsbD_eq_div b 6

theorem pmBit_eq (b : Byte) : pmBit b = (b.toNat / 32 % 2 == 1) := getLsbD_eq_div b 5

theorem centuryBit_eq (b : Byte) : centuryBit b = (b.toNat / 128 % 2 == 1) := getLsbD_eq_div b 7

theorem hour10_eq (b : Byte) : hour10 b = b.toNat / 16 % 2 := by
  simp [hour10, BitVec.extractLsb'_toNat, Nat.shiftRight_eq_div_pow]

theorem hourTens24_eq (b : Byte) : hourTens24 b = b.toNat / 16 % 4 := by
  simp [hourTens24, BitVec.extractLsb'_toNat, Nat.shiftRight_eq_div_pow]

/-- The hours value never wraps (R72, R79). -/
theorem hourValOf_toNat (b : Byte) :
    (hourValOf b).toNat =
      if mode12 b then b.toNat % 16 + 10 * (b.toNat / 16 % 2) else b.toNat % 16 + 10 * (b.toNat / 16 % 4) := by
  unfold hourValOf
  split <;> simp only [unitsDigit_eq, hour10_eq, hourTens24_eq, BitVec.toNat_ofNat] <;> omega

theorem and_0x7F_toNat (b : Byte) : (b &&& 0x7F#8).toNat = b.toNat % 128 := by
  have := Nat.and_two_pow_sub_one_eq_mod b.toNat 7
  simpa using this

/-- The month never wraps, and the century bit is no part of it (R76, R79). -/
theorem monthOf_toNat (b : Byte) : (monthOf b).toNat = b.toNat % 16 + 10 * (b.toNat / 16 % 8) := by
  rw [monthOf, bcd8_toNat, and_0x7F_toNat]; omega

/-- The year never wraps (R77, R79). -/
theorem yearOf_toNat (mon year : Byte) :
    (yearOf mon year).toNat = centuryBase (centuryBit mon) + (bcd8 year).toNat := by
  have := bcd8_le year
  have : centuryBase (centuryBit mon) ≤ 2000 := by unfold centuryBase; split <;> omega
  simp only [yearOf, BitVec.toNat_ofNat]; omega

theorem hourByte_toNat (tag : HourTag) (v : Byte) :
    (hourByte tag v).toNat =
      16 * ((v.toNat + hourOffset tag) % 256 / 10 % 16) + (v.toNat + hourOffset tag) % 256 % 10 := by
  rw [hourByte, pack8_toNat, BitVec.toNat_ofNat]

theorem dowByte_toNat (idx : Byte) : (dowByte idx).toNat = (idx.toNat + 1) % 256 := by
  simp [dowByte]

theorem monthByte_toNat (month : Byte) (year : Year) :
    (monthByte month year).toNat =
      16 * ((month.toNat + centuryOffset year) % 256 / 10 % 16) + (month.toNat + centuryOffset year) % 256 % 10 := by
  rw [monthByte, pack8_toNat, BitVec.toNat_ofNat]

theorem yearByte_toNat (year : Year) :
    (yearByte year).toNat = 16 * (year.toNat % 100 / 10) + year.toNat % 10 := by
  rw [yearByte, pack8_toNat, BitVec.toNat_ofNat]; omega

/-- The nine Time ports are in their full ranges for every snapshot (R54, R79). -/
theorem timePorts_inRange (raw : RawSnapshot) : (timePorts (timeOf raw)).InRange where
  sec := by simpa [timePorts, timeOf] using bcd8_le raw.sec
  min := by simpa [timePorts, timeOf] using bcd8_le raw.min
  day := by simpa [timePorts, timeOf] using bcd8_le raw.day
  month := by
    have := monthOf_toNat raw.mon
    simp only [timePorts, timeOf, Option.mem_def, Option.some.injEq, forall_eq']; omega
  year := by
    have h := yearOf_toNat raw.mon raw.year
    have := bcd8_le raw.year
    have : centuryBase (centuryBit raw.mon) = 2000 ∨ centuryBase (centuryBit raw.mon) = 1900 := by
      unfold centuryBase; split <;> simp
    simp only [timePorts, timeOf, Option.mem_def, Option.some.injEq, forall_eq']; omega
  h24 := by
    have h := hourValOf_toNat raw.hour
    simp only [timePorts, timeOf, Option.mem_def, Option.some.injEq, forall_eq']
    intro _; split at h <;> omega
  am := by
    have h := hourValOf_toNat raw.hour
    simp only [timePorts, timeOf, Option.mem_def, Option.some.injEq, forall_eq', hourTagOf]
    intro ht; split at h
    · omega
    · rw [if_neg (by assumption)] at ht; cases ht
  pm := by
    have h := hourValOf_toNat raw.hour
    simp only [timePorts, timeOf, Option.mem_def, Option.some.injEq, forall_eq', hourTagOf]
    intro ht; split at h
    · omega
    · rw [if_neg (by assumption)] at ht; cases ht
  hours := rfl
  dowValid := rfl

end Sys2Proof.Machine
end

