-- ==== Sys2Proof/Laws/Decode.lean ====
section
/-! SUPPORT. The operand bus's fields after the encoder has written them, and the command code's two fields (30_encoding.md R57, R58). -/

namespace Sys2Proof

/-- Two fields of the operand bus are equal when every bit is. -/
theorem field_eq_of_bits {n : Nat} {x y : BitVec n} (h : ∀ i, i < n → x.getLsbD i = y.getLsbD i) : x = y :=
  BitVec.eq_of_getLsbD_eq h

theorem rawOfBus_rawToBus (raw : RawSnapshot) : rawOfBus (rawToBus raw) = raw := by
  obtain ⟨b0, b1, b2, b3, b4, b5, b6⟩ := raw
  simp only [rawOfBus, rawToBus, RawSnapshot.mk.injEq]
  refine ⟨?_, ?_, ?_, ?_, ?_, ?_, ?_⟩ <;>
    (apply field_eq_of_bits; intro i hi; simp [hi]) <;> grind

/-- A bit of the operand bus of an encoder: year, tag and value where R58 puts them, 0 elsewhere. -/
theorem operandsToBus_bit (year : Year) (tag : BitVec 2) (v : Byte) (i : Nat) :
    (operandsToBus year tag v).getLsbD i =
      if i < 8 then v.getLsbD i else if i < 10 then tag.getLsbD (i - 8)
      else if i < 16 then false else if i < 32 then year.getLsbD (i - 16) else false := by
  simp only [operandsToBus, BitVec.getLsbD_append]
  grind

theorem valueField_operandsToBus (year : Year) (tag : BitVec 2) (v : Byte) :
    valueField (operandsToBus year tag v) = v := by
  apply field_eq_of_bits; intro i hi
  simp [valueField, operandsToBus_bit, hi]

theorem tagBits_operandsToBus (year : Year) (tag : BitVec 2) (v : Byte) :
    (operandsToBus year tag v).extractLsb' 8 2 = tag := by
  apply field_eq_of_bits; intro i hi
  simp [operandsToBus_bit, hi]
  omega

theorem yearField_operandsToBus (year : Year) (tag : BitVec 2) (v : Byte) :
    yearField (operandsToBus year tag v) = year := by
  apply field_eq_of_bits; intro i hi
  simp only [yearField, BitVec.getLsbD_extractLsb', operandsToBus_bit, hi]
  grind

theorem tagField_operandsToBus (year : Year) (tag : TagField) (v : Byte) :
    tagField (operandsToBus year (tagCode tag) v) = tag := by
  rw [tagField, tagBits_operandsToBus]
  rcases tag with (_ | _ | _) | _ <;> rfl

@[simp] theorem unitField_cmdOf (unit : BitVec 2) (sel : BitVec 3) : unitField (cmdOf unit sel) = unit := by
  revert unit sel; decide

@[simp] theorem selField_cmdOf (unit : BitVec 2) (sel : BitVec 3) : selField (cmdOf unit sel) = sel := by
  revert unit sel; decide

/-- A command code is its two fields (R57). -/
theorem cmdOf_fields (cmd : Cmd) : cmdOf (unitField cmd) (selField cmd) = cmd := by
  revert cmd; decide

end Sys2Proof
end

