-- ==== Sys2Proof/Laws/Exec.lean ====
section
/-! SUPPORT. What each shared operation and each scheduler operation can do, and what any operation that has a step does
(42_scheduler.md, 40_decode.md R69, 41_encode.md R85). -/

namespace Sys2Proof.Machine

theorem finish_next {p : Ports} {s t : State} (h : finish p s = .next t) : t = s.drive p := by
  cases h; rfl

/-- POLL in one line: `due` is the flag, and the flag is clear afterwards (R104). -/
theorem execPoll_eq (s : State) : execPoll s = .next (s.clearUf.drive (duePort s.uf)) := by
  unfold execPoll
  cases h : s.uf
  · rw [State.clearUf_of_idle h]; rfl
  · rfl

theorem execTick_enabled {s : State} (h : s.tip = true) :
    execTick s = .next (s.clearTip.setUf.drive Ports.undriven) := by
  simp [execTick, h, finish]

theorem execTick_disabled {s : State} (h : s.tip = false) : execTick s = .refused .tickNotEnabled := by
  simp [execTick, h]

theorem execFire_enabled {s : State} (h : s.run = true) :
    execFire s = .next (s.setTip.drive Ports.undriven) := by
  simp [execFire, h, finish]

theorem execFire_disabled {s : State} (h : s.run = false) : execFire s = .refused .fireNotEnabled := by
  simp [execFire, h]

theorem execTick_next {s t : State} (h : execTick s = .next t) :
    s.tip = true ∧ t = s.clearTip.setUf.drive Ports.undriven := by
  cases hs : s.tip
  · rw [execTick_disabled hs] at h; cases h
  · rw [execTick_enabled hs] at h; cases h; exact ⟨rfl, rfl⟩

theorem execFire_next {s t : State} (h : execFire s = .next t) :
    s.run = true ∧ t = s.setTip.drive Ports.undriven := by
  cases hs : s.run
  · rw [execFire_disabled hs] at h; cases h
  · rw [execFire_enabled hs] at h; cases h; exact ⟨rfl, rfl⟩

/-- A well-formed codec operation drives ports that depend on its operands alone, and does nothing else. -/
theorem exec_codec {i : Instr} (codec : isCodec i = true) (wf : i.wf = true) :
    ∃ p : Ports, p.due = none ∧ ∀ s, exec i s = finish p s := by
  cases i with
  | encHour tag v =>
    cases tag with
    | valid t => exact ⟨_, rfl, fun _ => rfl⟩
    | reserved => simp [Instr.wf] at wf
  | poll => cases codec
  | tick => cases codec
  | init => cases codec
  | fire => cases codec
  | _ => exact ⟨_, rfl, fun _ => rfl⟩

/-- Everything an operation that has a step can do. -/
theorem exec_next_cases {i : Instr} {s t : State} (h : exec i s = .next t) :
    (isCodec i = true ∧ i.wf = true ∧ ∃ p : Ports, p.due = none ∧ t = s.drive p) ∨
    (i = .poll ∧ t = s.clearUf.drive (duePort s.uf)) ∨
    (i = .tick ∧ s.tip = true ∧ t = s.clearTip.setUf.drive Ports.undriven) ∨
    (i = .init ∧ t = s.setRun.drive Ports.undriven) ∨
    (i = .fire ∧ s.run = true ∧ t = s.setTip.drive Ports.undriven) := by
  by_cases codec : isCodec i = true
  · left
    by_cases wf : i.wf = true
    · obtain ⟨p, due, hp⟩ := exec_codec codec wf
      rw [hp] at h
      exact ⟨codec, wf, p, due, finish_next h⟩
    · cases i with
      | encHour tag v =>
        cases tag with
        | valid _ => simp [Instr.wf] at wf
        | reserved => cases h
      | _ => simp [Instr.wf] at wf
  · right
    cases i with
    | poll => exact .inl ⟨rfl, by rw [exec, execPoll_eq] at h; cases h; rfl⟩
    | tick => exact .inr (.inl ⟨rfl, execTick_next h⟩)
    | init => exact .inr (.inr (.inl ⟨rfl, finish_next h⟩))
    | fire => exact .inr (.inr (.inr ⟨rfl, execFire_next h⟩))
    | _ => exact absurd rfl codec

/-! ### Sequences -/

@[simp] theorem execSeq_nil (s : State) : execSeq [] s = .next (s, []) := rfl

/-- A sequence that has a step is its first operation and then the rest. -/
theorem execSeq_cons_next {i : Instr} {is : List Instr} {s u : State} {ps : List Ports}
    (h : execSeq (i :: is) s = .next (u, ps)) :
    ∃ t qs, exec i s = .next t ∧ execSeq is t = .next (u, qs) ∧ ps = t.out :: qs := by
  simp only [execSeq] at h
  split at h
  · rename_i t ht
    split at h
    · rename_i v qs hv
      cases h
      exact ⟨t, qs, ht, hv, rfl⟩
    · cases h
    · cases h
  · cases h
  · cases h

theorem execSeq_cons_of_next {i : Instr} {is : List Instr} {s t u : State} {qs : List Ports}
    (first : exec i s = .next t) (rest : execSeq is t = .next (u, qs)) :
    execSeq (i :: is) s = .next (u, t.out :: qs) := by
  simp only [execSeq, first, rest]

/-! ### Steps -/

/-- What is accepted: a word that decodes, from the agent that may issue the operation (R130). -/
theorem accept_ok {agent : Agent} {word : BusWord} {i : Instr} :
    accept agent word = .ok i ↔ decode word = .ok i ∧ agent = agentOf i := by
  unfold accept
  cases decode word with
  | error e => simp
  | ok j =>
    by_cases h : agent = agentOf j
    · simp only [h, if_true, Except.ok.injEq]
      exact ⟨fun e => ⟨e, e ▸ rfl⟩, fun e => e.1⟩
    · simp only [h, if_false, reduceCtorEq, false_iff, Except.ok.injEq]
      rintro ⟨rfl, rfl⟩; exact h rfl

theorem step_idle {s : State} (h : s.inputs = []) : step s = .next (s.drive Ports.undriven) := by
  simp [step, h, idle, finish]

theorem step_op_accepted {s : State} {agent : Agent} {word : BusWord} {rest : List Input} {i : Instr}
    (h : s.inputs = .op agent word :: rest) (accepted : accept agent word = .ok i) :
    step s = exec i { s with inputs := rest } := by
  simp [step, h, accepted]

theorem step_op_refused {s : State} {agent : Agent} {word : BusWord} {rest : List Input} {r : Refusal}
    (h : s.inputs = .op agent word :: rest) (refused : accept agent word = .error r) :
    step s = .refused r := by
  simp [step, h, refused]

theorem step_busFault {s : State} {rest : List Input} (h : s.inputs = .busFault :: rest) :
    step s = .fault .busTransaction := by
  simp [step, h]

theorem step_processorFault {s : State} {rest : List Input} (h : s.inputs = .processorFault :: rest) :
    step s = .fault .processor := by
  simp [step, h]

theorem step_powerCycle {s : State} {rest : List Input} (h : s.inputs = .powerCycle :: rest) :
    step s = .next { State.reset with inputs := rest } := by
  simp [step, h, powerOn]

/-- Everything a step that has a next state can be. -/
theorem step_next_cases {s t : State} (h : step s = .next t) :
    (s.inputs = [] ∧ t = s.drive Ports.undriven) ∨
    (∃ agent word rest i, s.inputs = .op agent word :: rest ∧ accept agent word = .ok i ∧
      exec i { s with inputs := rest } = .next t) ∨
    (∃ rest, s.inputs = .powerCycle :: rest ∧ t = { State.reset with inputs := rest }) := by
  rcases hin : s.inputs with _ | ⟨_ | _ | _ | _, rest⟩
  · rw [step_idle hin] at h; cases h; exact .inl ⟨rfl, rfl⟩
  · rename_i agent word
    cases accepted : accept agent word with
    | ok i =>
      rw [step_op_accepted hin accepted] at h
      exact .inr (.inl ⟨agent, word, rest, i, rfl, accepted, h⟩)
    | error r => rw [step_op_refused hin accepted] at h; cases h
  · rw [step_busFault hin] at h; cases h
  · rw [step_processorFault hin] at h; cases h
  · rw [step_powerCycle hin] at h; cases h; exact .inr (.inr ⟨rest, rfl, rfl⟩)

end Sys2Proof.Machine
end

