-- ==== Sys2Proof/Laws/PerInstr.lean ====
section
/-! SUPPORT. The per-instruction family IgnoredBits: the encoder sets no bit that R58 marks ignored (30_encoding.md R58, R61). -/

namespace Sys2Proof.Laws.IgnoredBits

/-- Outside the operand bits of the operation's command, the encoded operand bus is 0. -/
def Statement (i : Instr) : Prop := i.bus &&& operandMask i.cmd = i.bus

theorem full_mask (a : OperandBus) : a &&& 0xFFFFFFFFFFFFFF#56 = a := by
  have : (0xFFFFFFFFFFFFFF#56) = BitVec.allOnes 56 := by decide
  rw [this, BitVec.and_allOnes]

/-- An encoder's bus keeps its bits under a mask that has 1 wherever a field can be set. -/
theorem and_mask_eq {a m : OperandBus} (h : ∀ i, i < 56 → m.getLsbD i = false → a.getLsbD i = false) : a &&& m = a := by
  apply field_eq_of_bits; intro i hi
  rw [BitVec.getLsbD_and]
  cases hm : m.getLsbD i
  · simp [h i hi hm]
  · simp

theorem decSec (raw : RawSnapshot) : Statement (.decSec raw) := full_mask _
theorem decMin (raw : RawSnapshot) : Statement (.decMin raw) := full_mask _
theorem decHour (raw : RawSnapshot) : Statement (.decHour raw) := full_mask _
theorem decDow (raw : RawSnapshot) : Statement (.decDow raw) := full_mask _
theorem decDay (raw : RawSnapshot) : Statement (.decDay raw) := full_mask _
theorem decMon (raw : RawSnapshot) : Statement (.decMon raw) := full_mask _
theorem decYear (raw : RawSnapshot) : Statement (.decYear raw) := full_mask _
theorem decode (raw : RawSnapshot) : Statement (.decode raw) := full_mask _

theorem mask_0xFF : ∀ i, i < 56 → (0xFF#56).getLsbD i = false → 8 ≤ i := by decide
theorem mask_0x3FF : ∀ i, i < 56 → (0x3FF#56).getLsbD i = false → 10 ≤ i := by decide
theorem mask_0xFFFF00FF : ∀ i, i < 56 → (0xFFFF00FF#56).getLsbD i = false → (8 ≤ i ∧ i < 16) ∨ 32 ≤ i := by decide
theorem mask_0xFFFF0000 : ∀ i, i < 56 → (0xFFFF0000#56).getLsbD i = false → i < 16 ∨ 32 ≤ i := by decide

theorem byte_only (v : Byte) : operandsToBus 0 0 v &&& 0xFF#56 = operandsToBus 0 0 v := by
  apply and_mask_eq; intro i hi hm
  have := mask_0xFF i hi hm
  rw [operandsToBus_bit]; simp; omega

theorem encSec (v : Byte) : Statement (.encSec v) := byte_only v
theorem encMin (v : Byte) : Statement (.encMin v) := byte_only v

theorem encHour (tag : TagField) (v : Byte) : Statement (.encHour tag v) := by
  refine and_mask_eq (m := 0x3FF#56) ?_
  intro i hi hm
  have := mask_0x3FF i hi hm
  rw [Instr.bus, operandsToBus_bit]; grind

theorem encDow (idx : Byte) : Statement (.encDow idx) := byte_only idx
theorem encDay (v : Byte) : Statement (.encDay v) := byte_only v

theorem encMon (month : Byte) (year : Year) : Statement (.encMon month year) := by
  refine and_mask_eq (m := 0xFFFF00FF#56) ?_
  intro i hi hm
  have := mask_0xFFFF00FF i hi hm
  rw [Instr.bus, operandsToBus_bit]; grind

theorem encYear (year : Year) : Statement (.encYear year) := by
  refine and_mask_eq (m := 0xFFFF0000#56) ?_
  intro i hi hm
  have := mask_0xFFFF0000 i hi hm
  rw [Instr.bus, operandsToBus_bit]; grind

theorem poll : Statement .poll := rfl
theorem tick : Statement .tick := rfl
theorem init : Statement .init := rfl
theorem fire : Statement .fire := rfl

end Sys2Proof.Laws.IgnoredBits
end

