-- ==== Sys2Proof/Tests/Slice0.lean ====
section
/-! SUPPORT. Tests of the model on values of the spec (95_test_vectors.md and the worked examples of the operations' rules), the smoke test of WellFormed,
and a witness for the hypotheses of each statement. -/

namespace Sys2Proof.Tests

open Sys2Proof.Machine

/-! ### Helpers -/

def nextState : Result → Option State
  | .next t => some t
  | .fault _ => none
  | .refused _ => none

def portsOf (r : Result) : Option Ports := (nextState r).map (·.out)

def refusal : Result → Option Refusal
  | .next _ => none
  | .fault _ => none
  | .refused r => some r

/-- The triple `(UF, TIP, RUN)` of 95_test_vectors.md. -/
def triple (r : Result) : Option (Bool × Bool × Bool) := (nextState r).map fun t => (t.uf, t.tip, t.run)

def at' (uf tip run : Bool) : State := { State.reset with uf := uf, tip := tip, run := run }

/-- The snapshot of programs P1 and P2. -/
def p1 : RawSnapshot := ⟨0x30, 0x45, 0x62, 0x03, 0x15, 0x89, 0x23⟩

/-! ### WellFormed: an ill-formed term for its one check -/

theorem test_wf_refuses_reserved_tag : Instr.wf (.encHour .reserved 2) = false := by decide
theorem test_wf_accepts_pm : Instr.wf (.encHour (.valid .pm) 2) = true := by decide

/-! ### Decoding, on words written out from the operation map (30_encoding.md R57 to R59) -/

theorem test_decode_decSec : (decode ⟨0b00000#5, 0x07060504030201#56⟩).toOption = some (.decSec ⟨1, 2, 3, 4, 5, 6, 7⟩) := by decide
theorem test_decode_decMin : (decode ⟨0b00001#5, 0x07060504030201#56⟩).toOption = some (.decMin ⟨1, 2, 3, 4, 5, 6, 7⟩) := by decide
theorem test_decode_decHour : (decode ⟨0b00010#5, 0x00000000E20000#56⟩).toOption = some (.decHour ⟨0, 0, 0xE2, 0, 0, 0, 0⟩) := by decide
theorem test_decode_decDow : (decode ⟨0b00011#5, 0x00000008000000#56⟩).toOption = some (.decDow ⟨0, 0, 0, 8, 0, 0, 0⟩) := by decide
theorem test_decode_decDay : (decode ⟨0b00100#5, 0x00001500000000#56⟩).toOption = some (.decDay ⟨0, 0, 0, 0, 0x15, 0, 0⟩) := by decide
theorem test_decode_decMon : (decode ⟨0b00101#5, 0x00890000000000#56⟩).toOption = some (.decMon ⟨0, 0, 0, 0, 0, 0x89, 0⟩) := by decide
theorem test_decode_decYear : (decode ⟨0b00110#5, 0xA0800000000000#56⟩).toOption = some (.decYear ⟨0, 0, 0, 0, 0, 0x80, 0xA0⟩) := by decide
theorem test_decode_decode : (decode ⟨0b00111#5, 0x23891503624530#56⟩).toOption = some (.decode p1) := by decide
theorem test_decode_encSec : (decode ⟨0b01000#5, 0x0000000000001E#56⟩).toOption = some (.encSec 30) := by decide
theorem test_decode_encMin : (decode ⟨0b01001#5, 0x0000000000002D#56⟩).toOption = some (.encMin 45) := by decide
theorem test_decode_encHour : (decode ⟨0b01010#5, 0x00000000000202#56⟩).toOption = some (.encHour (.valid .pm) 2) := by decide
theorem test_decode_encDow : (decode ⟨0b01011#5, 0x00000000000002#56⟩).toOption = some (.encDow 2) := by decide
theorem test_decode_encDay : (decode ⟨0b01100#5, 0x0000000000000F#56⟩).toOption = some (.encDay 15) := by decide
theorem test_decode_encMon : (decode ⟨0b01101#5, 0x00000007E70009#56⟩).toOption = some (.encMon 9 2023) := by decide
theorem test_decode_encYear : (decode ⟨0b01110#5, 0x00000007E70000#56⟩).toOption = some (.encYear 2023) := by decide
theorem test_decode_poll : (decode ⟨0b10000#5, 0#56⟩).toOption = some .poll := by decide
theorem test_decode_tick : (decode ⟨0b10001#5, 0#56⟩).toOption = some .tick := by decide
theorem test_decode_init : (decode ⟨0b10010#5, 0#56⟩).toOption = some .init := by decide
theorem test_decode_fire : (decode ⟨0b10011#5, 0#56⟩).toOption = some .fire := by decide
theorem test_decode_reserved : (decode ⟨15#5, 0#56⟩).toOption = none ∧ (decode ⟨20#5, 0#56⟩).toOption = none ∧
    (decode ⟨31#5, 0#56⟩).toOption = none ∧ (decode ⟨10#5, 0x302#56⟩).toOption = none := by decide
theorem test_table_word : decodeTableWord 8 0x07 = some (.decode ⟨0, 0, 0, 0, 0, 0, 0⟩) ∧ decodeTableWord 8 0x12 = some .init ∧
    decodeTableWord 64 0x00000007E700090D = some (.encMon 9 2023) ∧ decodeTableWord 8 0x0F = none := by decide

/-! ### One step of each operation -/

/-- R70: `0x5A` in the seconds byte is 60, and R71's neighbours are not read. -/
theorem test_decSec : (portsOf (exec (.decSec ⟨0x5A, 1, 2, 3, 4, 5, 6⟩) State.reset)).map (·.sec) = some (some 60) := by decide
theorem test_decMin : (portsOf (exec (.decMin ⟨0, 0xFF, 0, 0, 0, 0, 0⟩) State.reset)).map (·.min) = some (some 165) := by decide
/-- R73 (vii): the literal of E6, bit 6 clear, is H24 22; `0x7F` is PM 25. -/
theorem test_decHour_h24 : (portsOf (exec (.decHour ⟨0, 0, 0xA2, 0, 0, 0, 0⟩) State.reset)).map (fun p => (p.hrTag, p.hrVal)) =
    some (some .h24, some 22) := by decide
theorem test_decHour_pm : (portsOf (exec (.decHour ⟨0, 0, 0x7F, 0, 0, 0, 0⟩) State.reset)).map (fun p => (p.hrTag, p.hrVal)) =
    some (some .pm, some 25) := by decide
theorem test_decDow_wed : (portsOf (exec (.decDow p1) State.reset)).map (fun p => (p.dow, p.dowValid)) =
    some (some .wed, some true) := by decide
theorem test_decDow_unknown : (portsOf (exec (.decDow ⟨0, 0, 0, 0x00, 0, 0, 0⟩) State.reset)).map (fun p => (p.dow, p.dowValid)) =
    some (some .unknown, some false) := by decide
theorem test_decDay : (portsOf (exec (.decDay ⟨0, 0, 0, 0, 0x32, 0, 0⟩) State.reset)).map (·.day) = some (some 32) := by decide
theorem test_decMon : (portsOf (exec (.decMon ⟨0, 0, 0, 0, 0, 0x92, 0⟩) State.reset)).map (·.month) = some (some 12) := by decide
theorem test_decYear_set : (portsOf (exec (.decYear ⟨0, 0, 0, 0, 0, 0x80, 0xA0⟩) State.reset)).map (·.year) = some (some 2100) := by decide
theorem test_decYear_clear : (portsOf (exec (.decYear ⟨0, 0, 0, 0, 0, 0x09, 0x23⟩) State.reset)).map (·.year) = some (some 1923) := by decide
/-- P1 line 8. -/
theorem test_decode_p1 : portsOf (exec (.decode p1) State.reset) =
    some (timePorts ⟨30, 45, .pm, 2, .wed, 15, 9, 2023⟩) := by decide
/-- P5 line 2. -/
theorem test_decode_all_ones : portsOf (exec (.decode ⟨0xFF, 0xFF, 0xFF, 0xFF, 0xFF, 0xFF, 0xFF⟩) State.reset) =
    some (timePorts ⟨165, 165, .pm, 25, .unknown, 165, 85, 2165⟩) := by decide
theorem test_encSec : (portsOf (exec (.encSec 255) State.reset)).map (·.q) = some (some 0x95) := by decide
theorem test_encMin : (portsOf (exec (.encMin 100) State.reset)).map (·.q) = some (some 0xA0) := by decide
/-- R93: AM 216 wraps to `0x00`; PM 255 gives `0x59`. -/
theorem test_encHour_am : (portsOf (exec (.encHour (.valid .am) 216) State.reset)).map (·.q) = some (some 0x00) := by decide
theorem test_encHour_pm : (portsOf (exec (.encHour (.valid .pm) 255) State.reset)).map (·.q) = some (some 0x59) := by decide
theorem test_encDow : (portsOf (exec (.encDow 9) State.reset)).map (·.q) = some (some 0x0A) := by decide
theorem test_encDay : (portsOf (exec (.encDay 31) State.reset)).map (·.q) = some (some 0x31) := by decide
/-- R94: (2023, 80) loses the century bit; (1999, 80) sets it. -/
theorem test_encMon_2023 : (portsOf (exec (.encMon 80 2023) State.reset)).map (·.q) = some (some 0x00) := by decide
theorem test_encMon_1999 : (portsOf (exec (.encMon 80 1999) State.reset)).map (·.q) = some (some 0x80) := by decide
theorem test_encYear : (portsOf (exec (.encYear 65535) State.reset)).map (·.q) = some (some 0x35) := by decide
/-- R112's table. -/
theorem test_poll_pending : triple (exec .poll (at' true true true)) = some (false, true, true) := by decide
theorem test_poll_idle : triple (exec .poll (at' false true true)) = some (false, true, true) := by decide
theorem test_tick : triple (exec .tick (at' true true true)) = some (true, false, true) := by decide
theorem test_tick_not_enabled : refusal (exec .tick (at' false false true)) = some .tickNotEnabled := by decide
theorem test_init : triple (exec .init (at' false false false)) = some (false, false, true) := by decide
theorem test_fire : triple (exec .fire (at' true false true)) = some (true, true, true) := by decide
theorem test_fire_not_enabled : refusal (exec .fire State.reset) = some .fireNotEnabled := by decide

/-! ### Steps from reset -/

theorem test_step_init_from_reset : triple (step (State.reset.withFetchWord 8 0x12)) = some (false, false, true) := by decide
theorem test_step_wrong_context : refusal (step { State.reset with inputs := [.op .interrupt ⟨16#5, 0⟩] }) =
    some (.wrongContext .interrupt) := by decide
theorem test_encoded_register : encodedReg (.encMon 9 2023) = some .mon := by decide
theorem test_tight_delivery : tightDelivery [.fire, .poll, .tick, .poll] = true ∧ tightDelivery [.fire, .poll, .poll, .tick] = false := by decide

/-! ### Witnesses: states and operands that meet the hypotheses of the statements -/

/-- A running machine to which the main context presents a POLL. -/
def polling : State := { at' true true true with inputs := [.op .main ⟨16#5, 0⟩] }

theorem witness_EncodedOperationDecodesToItself : Instr.wf (.encHour (.valid .am) 7) = true := by decide
theorem witness_DecodedWordIsItsOperandBits : decode ⟨10#5, 0xFFFFFFFFFFFD02#56⟩ = .ok (.encHour (.valid .am) 2) := rfl
theorem witness_ReservedCommandCodesAreRefused :
    ∃ (s : State) (w v : BusWord), s.inputs = [.op .main w] ∧ w.cmd.toNat = 15 ∧ 20 ≤ v.cmd.toNat :=
  ⟨{ State.reset with inputs := [.op .main ⟨15#5, 0⟩] }, ⟨15#5, 0⟩, ⟨20#5, 0⟩, rfl, by decide, by decide⟩
theorem witness_ReservedTag : ∃ (s : State) (w : BusWord),
    s.inputs = [.op .main w] ∧ w.cmd = 10#5 ∧ w.a.getLsbD 8 = true ∧ w.a.getLsbD 9 = true :=
  ⟨{ State.reset with inputs := [.op .main ⟨10#5, 0x300#56⟩] }, ⟨10#5, 0x300#56⟩, rfl, rfl, by decide, by decide⟩
theorem witness_IgnoredBits : (0xFFFFFFFFFFFF07#56 &&& operandMask 8#5) = (0x07#56 &&& operandMask 8#5) := by decide
theorem witness_StepRunsThePresentedOperation : ∃ (w : BusWord) (i : Instr), polling.inputs = [.op .main w] ∧ decode w = .ok i ∧
    i ≠ .tick ∧ i ≠ .fire :=
  ⟨⟨16#5, 0⟩, .poll, rfl, rfl, by decide, by decide⟩
theorem witness_WrongContextIsRefused :
    decode ⟨16#5, 0⟩ = .ok .poll ∧ decode ⟨17#5, 0⟩ = .ok .tick ∧ decode ⟨19#5, 0⟩ = .ok .fire ∧
    Agent.interrupt ≠ .main ∧ Agent.main ≠ .interrupt ∧ Agent.main ≠ .timer :=
  ⟨rfl, rfl, rfl, by decide, by decide, by decide⟩
theorem witness_StepOnWhatIsNoOperation : State.reset.inputs = [] ∧
    { State.reset with inputs := [Input.busFault] }.inputs = [.busFault] ∧
    { State.reset with inputs := [Input.processorFault] }.inputs = [.processorFault] ∧
    { State.reset with inputs := [Input.powerCycle] }.inputs = [.powerCycle] := by decide
theorem witness_HoursDecodeByTheModeBit :
    (0x60#8).toNat / 64 % 2 = 1 ∧ (0x60#8).toNat / 32 % 2 = 1 ∧ (0x5F#8).toNat / 64 % 2 = 1 ∧ (0x5F#8).toNat / 32 % 2 = 0 ∧
    (0x3F#8).toNat / 64 % 2 = 0 := by decide
theorem witness_DayOfWeekIndexIsMapped :
    (1 ≤ (1#8).toNat ∧ (1#8).toNat ≤ 7) ∧ (1 ≤ (7#8).toNat ∧ (7#8).toNat ≤ 7) ∧ (0#8).toNat = 0 ∧ 8 ≤ (8#8).toNat := by decide
theorem witness_YearDecodesByTheCenturyBit : 128 ≤ (0x80#8).toNat ∧ (0x7F#8).toNat < 128 := by decide
theorem witness_WholeDecodeIndependence : ∃ raw raw' : RawSnapshot, raw ≠ raw' ∧ raw.mon &&& 0x80#8 = raw'.mon &&& 0x80#8 ∧
    raw.year = raw'.year ∧ raw.mon ≠ raw'.mon :=
  ⟨p1, { p1 with mon := 0x92 }, by decide, by decide, by decide, by decide⟩
theorem witness_OnlyHoursBit7IsUnread : ∃ (r : Reg) (j : Nat), j < 8 ∧ r = .hour ∧ j = 7 := ⟨.hour, 7, by decide, rfl, rfl⟩
theorem witness_DayOfWeekEncodes : (254#8).toNat < 255 ∧ (255#8).toNat = 255 := by decide
theorem witness_MonthEncodes : 2000 ≤ (2000#16).toNat ∧ (1999#16).toNat < 2000 := by decide
theorem witness_DecodeOperationsArePureAndCommute : ∃ (i j : Instr) (s t u : State), isCodec i = true ∧ (encode i).cmd.toNat < 8 ∧
    exec i s = .next t ∧ exec j s = .next u ∧ polling.inputs = [.op .main ⟨16#5, 0⟩] :=
  ⟨.decode p1, .tick, at' false true true, _, _, rfl, by decide, rfl, rfl, rfl⟩
theorem witness_DecodeFromTheWrongContext : ∃ (s : State) (w : BusWord), s.inputs = [.op .interrupt w] ∧ decode w = .ok (.decode p1) ∧
    Agent.interrupt ≠ .main :=
  ⟨{ State.reset with inputs := [.op .interrupt (encode (.decode p1))] }, encode (.decode p1), rfl, rfl, by decide⟩
theorem witness_EncodeOperationsArePureAndCommute : ∃ (i j : Instr) (s t u : State), isCodec i = true ∧ 8 ≤ (encode i).cmd.toNat ∧
    i.wf = true ∧ exec i s = .next t ∧ exec j s = .next u :=
  ⟨.encHour (.valid .am) 12, .poll, at' true true true, _, _, rfl, by decide, rfl, rfl, rfl⟩
theorem witness_EncodeFromTheWrongContext : ∃ (s : State) (w : BusWord), s.inputs = [.op .timer w] ∧ decode w = .ok (.encSec 30) ∧
    Agent.timer ≠ .main :=
  ⟨{ State.reset with inputs := [.op .timer ⟨8#5, 30#56⟩] }, ⟨8#5, 30#56⟩, rfl, rfl, by decide⟩
theorem witness_EveryOperandIsAccepted : isCodec (.encYear 65535) = true ∧ Instr.wf (.encYear 65535) = true := by decide
theorem witness_OperationsDriveTheListedPorts : ∃ t, exec .poll State.reset = .next t := ⟨_, rfl⟩
theorem witness_DecodeRemembersNothing : ∃ (s t u : State) (ps : List Ports), isCodec (.decMon p1) = true ∧
    (encode (.decMon p1)).cmd.toNat < 8 ∧ exec (.decMon p1) s = .next t ∧ execSeq [.tick, .poll, .encSec 3] t = .next (u, ps) :=
  ⟨at' false true true, _, _, _, rfl, by decide, rfl, rfl⟩
theorem witness_TwoDigitRoundTripExtent : (159#8).toNat ≤ 159 ∧ 160 ≤ (160#8).toNat := by decide
theorem witness_DayOfWeekRoundTripExtent : (6#8).toNat ≤ 6 ∧ 7 ≤ (7#8).toNat := by decide
theorem witness_MonthAndYearRoundTripExtent : (79#8).toNat ≤ 79 ∧ 2000 ≤ (2000#16).toNat ∧ (1999#16).toNat < 2000 := by decide
theorem witness_DocumentedRoundTrips :
    ((HourTag.h24 = .h24 ∧ (23#8).toNat ≤ 23) ∧ (HourTag.pm ≠ .h24 ∧ 1 ≤ (12#8).toNat ∧ (12#8).toNat ≤ 12)) ∧
    Dow.sun ≠ .unknown ∧ ({ p1 with dow := 0 } : RawSnapshot).dow = 0#8 ∧
    (79#8).toNat ≤ 79 ∧ 1900 ≤ (1900#16).toNat ∧ (1900#16).toNat ≤ 2099 := by decide
theorem witness_EncodedTimeDecodesToItself : ∃ t : Time, t.sec.toNat ≤ 159 ∧ t.min.toNat ≤ 159 ∧ t.day.toNat ≤ 159 ∧ t.month.toNat ≤ 79 ∧
    t.hrVal.toNat ≤ (if t.hrTag = .h24 then 39 else 19) ∧ 1900 ≤ t.year.toNat ∧ t.year.toNat ≤ 2099 ∧ t.dow = .unknown :=
  ⟨⟨59, 59, .pm, 12, .unknown, 31, 12, 2099⟩, by decide⟩
theorem witness_FireSetsTip : (at' false true true).run = true ∧ State.reset.run = false := by decide
theorem witness_TickClearsTipAndSetsUf : (at' true true true).tip = true ∧ State.reset.tip = false := by decide
theorem witness_PollReadsAndClears : (at' true true true).uf = true ∧ State.reset.uf = false := by decide
theorem witness_OnlyTickSets : ∃ t, exec .tick (at' false true true) = .next t ∧ (at' false true true).uf = false ∧ t.uf = true :=
  ⟨_, rfl, rfl, rfl⟩
theorem witness_OnlyPollClears : ∃ t, exec .poll (at' true false true) = .next t ∧ (at' true false true).uf = true ∧ t.uf = false :=
  ⟨_, rfl, rfl, rfl⟩
theorem witness_AccessRights : ∃ t u v w, exec .tick (at' false true true) = .next t ∧ exec .fire (at' true false true) = .next u ∧
    exec .init State.reset = .next v ∧ exec .poll (at' true false true) = .next w :=
  ⟨_, _, _, _, rfl, rfl, rfl, rfl⟩
theorem witness_CoalescedTicks : ∃ u ps, execSeq [.fire, .tick, .fire, .tick] (at' false false true) = .next (u, ps) ∧
    Instr.tick ∈ [Instr.fire, .tick, .fire, .tick] ∧ Instr.poll ∉ [Instr.fire, .tick, .fire, .tick] :=
  ⟨_, _, rfl, by decide, by decide⟩
theorem witness_NoDoubleCount : ∃ t u v ps, exec .poll (at' true true true) = .next t ∧ execSeq [.fire, .init] t = .next (u, ps) ∧
    Instr.tick ∉ [Instr.fire, .init] ∧ exec .poll u = .next v :=
  ⟨_, _, _, _, rfl, rfl, by decide, rfl⟩
theorem witness_CountNotRecoverable : (at' false false true).run = true ∧ 1 ≤ 3 := by decide
theorem witness_PendingFiringWaitsForItsTick : ∃ t ps, (at' false true true).tip = true ∧
    execSeq [.poll, .decode p1, .fire] (at' false true true) = .next (t, ps) ∧ Instr.tick ∉ [Instr.poll, .decode p1, .fire] :=
  ⟨_, _, rfl, rfl, by decide⟩
theorem witness_TightDelivery : ∃ t ps, execSeq [.fire, .poll, .tick, .poll] (at' false false true) = .next (t, ps) ∧
    tightDelivery [.fire, .poll, .tick, .poll] = true ∧ 2 ≤ [Instr.poll, .tick, .poll].count .poll :=
  ⟨_, _, rfl, by decide, by decide⟩
theorem witness_StepKeepsTheInvariant : ∃ t, polling.Inv ∧ step polling = .next t :=
  ⟨_, ⟨⟨fun _ => rfl, fun _ => rfl⟩, by constructor <;> simp [polling, at', State.reset, Ports.undriven]⟩, rfl⟩
theorem witness_NothingIsDueBeforeInit : ∃ u ps, execSeq [.poll, .encSec 30, .poll] State.reset = .next (u, ps) ∧
    Instr.init ∉ [Instr.poll, .encSec 30, .poll] :=
  ⟨_, _, rfl, by decide⟩
theorem witness_NoOperationRaisesAFault : polling.inputs = [.op .main ⟨16#5, 0⟩] ∧ Instr.wf .poll = true ∧ Instr.poll ≠ .tick ∧
    Instr.poll ≠ .fire ∧ polling.tip = true ∧ polling.run = true := by decide

/-- Fire, tick, poll, for ever. -/
def cycleOp (n : Nat) : Instr := if n % 3 = 0 then .fire else if n % 3 = 1 then .tick else .poll

def cycleState (n : Nat) : State :=
  if n % 3 = 0 then { at' false false true with out := duePort true } else if n % 3 = 1 then at' false true true else at' true false true

theorem cycle_isRun : IsRun cycleState cycleOp := by
  intro n
  have h : n % 3 = 0 ∨ n % 3 = 1 ∨ n % 3 = 2 := by omega
  rcases h with h | h | h
  · have h' : (n + 1) % 3 = 1 := by omega
    simp only [cycleOp, cycleState, h, h']; rfl
  · have h' : (n + 1) % 3 = 2 := by omega
    simp only [cycleOp, cycleState, h, h']; rfl
  · have h' : (n + 1) % 3 = 0 := by omega
    simp only [cycleOp, cycleState, h, h']; rfl

theorem witness_RefreshIsNeverSkippedForever : IsRun cycleState cycleOp ∧ TickIsFair cycleState cycleOp ∧ FireIsFair cycleState cycleOp ∧
    (∀ n, ∃ m, n ≤ m ∧ cycleOp m = .poll) ∧ (cycleState 0).run = true :=
  ⟨cycle_isRun,
    fun n _ => ⟨3 * n + 1, by omega, by rw [cycleOp, if_neg (by omega), if_pos (by omega)]⟩,
    fun n _ => ⟨3 * n, by omega, by rw [cycleOp, if_pos (by omega)]⟩,
    fun n => ⟨3 * n + 2, by omega, by rw [cycleOp, if_neg (by omega), if_neg (by omega)]⟩,
    rfl⟩

end Sys2Proof.Tests
end

section
/-! PROOFS. The state bits and what each operation reads and writes of them (10_state.md R15, R20, R21). -/

namespace Sys2Proof.Machine

/-- Driving the ports leaves `S` and what is still to be presented as they were (R23). -/
theorem State.sameExceptPorts_drive (s : State) (p : Ports) : s.sameExceptPorts (s.drive p) :=
  ⟨rfl, rfl, rfl, rfl⟩

/-- Only a well-formed operation has a step: the reserved tag has none (R61). -/
theorem wf_of_exec_next {i : Instr} {s t : State} (h : exec i s = .next t) : i.wf = true := by
  rcases exec_next_cases h with ⟨-, wf, -⟩ | ⟨rfl, -⟩ | ⟨rfl, -⟩ | ⟨rfl, -⟩ | ⟨rfl, -⟩
  · exact wf
  all_goals rfl

/-- A codec operation that has a step in one state drives the same ports in every state, and does nothing else. -/
theorem exec_codec_of_next {i : Instr} {s t : State} (codec : isCodec i = true) (h : exec i s = .next t) :
    ∃ p : Ports, t = s.drive p ∧ ∀ s', exec i s' = .next (s'.drive p) := by
  obtain ⟨p, -, hp⟩ := exec_codec codec (wf_of_exec_next h)
  exact ⟨p, finish_next (hp s ▸ h), hp⟩

/-- The writing half of R21's table: a bit that changed, and the value its writer left. -/
theorem exec_next_writes {i : Instr} {s t : State} (h : exec i s = .next t) :
    (t.uf ≠ s.uf → i = .tick ∨ i = .poll) ∧ (t.tip ≠ s.tip → i = .fire ∨ i = .tick) ∧ (t.run ≠ s.run → i = .init) ∧
    (i = .fire → t.tip = true) ∧ (i = .tick → t.tip = false ∧ t.uf = true) ∧
    (i = .poll → t.uf = false ∧ t.out.due = some s.uf) ∧ (i = .init → t.run = true) := by
  rcases exec_next_cases h with
    ⟨codec, -, p, -, rfl⟩ | ⟨rfl, rfl⟩ | ⟨rfl, -, rfl⟩ | ⟨rfl, rfl⟩ | ⟨rfl, -, rfl⟩
  · have notScheduler : i ≠ .fire ∧ i ≠ .tick ∧ i ≠ .poll ∧ i ≠ .init := by
      refine ⟨?_, ?_, ?_, ?_⟩ <;> rintro rfl <;> cases codec
    simp [notScheduler]
  all_goals simp

/-- The reading half of R21's table: an operation that has a step has one in every state that agrees on the bit it reads,
drives the same ports there, and gives the same value to each bit on which the two states agreed before. -/
theorem exec_next_of_reads_agree {i : Instr} {s s' t : State} (h : exec i s = .next t)
    (poll : i = .poll → s'.uf = s.uf) (tick : i = .tick → s'.tip = s.tip) (fire : i = .fire → s'.run = s.run) :
    ∃ t', exec i s' = .next t' ∧ t'.out = t.out ∧ (s'.uf = s.uf → t'.uf = t.uf) ∧ (s'.tip = s.tip → t'.tip = t.tip) ∧
      (s'.run = s.run → t'.run = t.run) := by
  rcases exec_next_cases h with
    ⟨codec, -⟩ | ⟨rfl, rfl⟩ | ⟨rfl, tip, rfl⟩ | ⟨rfl, rfl⟩ | ⟨rfl, run, rfl⟩
  · obtain ⟨p, rfl, hp⟩ := exec_codec_of_next codec h
    exact ⟨_, hp s', by simp⟩
  · exact ⟨_, execPoll_eq s', by simp [poll rfl]⟩
  · exact ⟨_, execTick_enabled ((tick rfl).trans tip), by simp⟩
  · exact ⟨_, rfl, by simp⟩
  · exact ⟨_, execFire_enabled ((fire rfl).trans run), by simp⟩

/-- Settles O27: the ports of a codec operation are fixed by its operands, so the state in which it runs again,
whatever led there, makes no difference. -/
theorem decodeRemembersNothing : Obligations.DecodeRemembersNothing := by
  intro i _ s t u _ codec _ h _
  obtain ⟨p, rfl, hp⟩ := exec_codec_of_next codec h
  exact ⟨s.sameExceptPorts_drive p, u.drive p, hp u, rfl, u.sameExceptPorts_drive p⟩

/-- Settles O39: the two halves of R21's table, the reading half once for each bit. -/
theorem accessRightsOfTheStateBits : Obligations.AccessRightsOfTheStateBits := by
  refine ⟨fun _ _ _ => exec_next_writes, ?uf, ?tip, ?run⟩
  case uf =>
    intro i s t b h notPoll
    obtain ⟨t', next, out, -, tip, run⟩ := exec_next_of_reads_agree (s' := { s with uf := b }) h
      (fun isPoll => absurd isPoll notPoll) (fun _ => rfl) (fun _ => rfl)
    exact ⟨t', next, out, tip rfl, run rfl⟩
  case tip =>
    intro i s t b h notTick
    obtain ⟨t', next, out, uf, -, run⟩ := exec_next_of_reads_agree (s' := { s with tip := b }) h
      (fun _ => rfl) (fun isTick => absurd isTick notTick) (fun _ => rfl)
    exact ⟨t', next, out, uf rfl, run rfl⟩
  case run =>
    intro i s t b h notFire
    obtain ⟨t', next, out, uf, tip, -⟩ := exec_next_of_reads_agree (s' := { s with run := b }) h
      (fun _ => rfl) (fun _ => rfl) (fun isFire => absurd isFire notFire)
    exact ⟨t', next, out, uf rfl, tip rfl⟩

end Sys2Proof.Machine
end

section
/-! PROOFS. The codec on every operand: each operation completes with a result, and the two-digit fields in packed BCD
(30_encoding.md R52, R53, R62). -/

namespace Sys2Proof.Machine

theorem Ports.ne_undriven_of_driven {p : Ports} {n : PortName} (driven : p.driven n = true) : p ≠ Ports.undriven := by
  rintro rfl
  cases n <;> cases driven

/-- A codec operation that has a step drives a port: one of the fields it decodes, or `q` (R59, R67). -/
theorem exists_driven_of_exec_codec {i : Instr} {s t : State} (codec : isCodec i = true) (h : exec i s = .next t) :
    ∃ n : PortName, t.out.driven n = true := by
  cases i with
  | decSec _ => exact ⟨.sec, by cases h; rfl⟩
  | decMin _ => exact ⟨.min, by cases h; rfl⟩
  | decHour _ => exact ⟨.hrTag, by cases h; rfl⟩
  | decDow _ => exact ⟨.dow, by cases h; rfl⟩
  | decDay _ => exact ⟨.day, by cases h; rfl⟩
  | decMon _ => exact ⟨.month, by cases h; rfl⟩
  | decYear _ => exact ⟨.year, by cases h; rfl⟩
  | decode _ => exact ⟨.sec, by cases h; rfl⟩
  | encHour tag _ =>
    cases tag with
    | valid _ => exact ⟨.q, by cases h; rfl⟩
    | reserved => cases h
  | poll => cases codec
  | tick => cases codec
  | init => cases codec
  | fire => cases codec
  | _ => exact ⟨.q, by cases h; rfl⟩

/-- Settles O25: a well-formed codec operation only drives ports, and at least one of them. -/
theorem everyOperandIsAccepted : Obligations.EveryOperandIsAccepted := by
  intro i s codec wf
  obtain ⟨p, -, hp⟩ := exec_codec codec wf
  obtain ⟨n, driven⟩ := exists_driven_of_exec_codec codec (hp s)
  exact ⟨s.drive p, hp s, s.sameExceptPorts_drive p, Ports.ne_undriven_of_driven driven⟩

/-- Settles O11: each of the three drives `bcd8` of its own byte, which never wraps (R52). -/
theorem twoDigitFieldsDecodeAsPackedBcd : Obligations.TwoDigitFieldsDecodeAsPackedBcd := by
  intro raw s
  refine ⟨?sec, ?min, ?day⟩
  case sec => exact ⟨bcd8 raw.sec, rfl, bcd8_toNat _, rfl⟩
  case min => exact ⟨bcd8 raw.min, rfl, bcd8_toNat _, rfl⟩
  case day => exact ⟨bcd8 raw.day, rfl, bcd8_toNat _, rfl⟩

/-- Settles O18: each of the three drives `pack8` of its operand on `q` (R53). -/
theorem twoDigitFieldsEncodeAsPackedBcd : Obligations.TwoDigitFieldsEncodeAsPackedBcd := by
  intro v s
  refine ⟨?sec, ?min, ?day⟩
  case sec => exact ⟨pack8 v, rfl, pack8_toNat v, rfl⟩
  case min => exact ⟨pack8 v, rfl, pack8_toNat v, rfl⟩
  case day => exact ⟨pack8 v, rfl, pack8_toNat v, rfl⟩

end Sys2Proof.Machine
end

section
/-! PROOFS. The decode unit's day of the week, month and year, and the whole snapshot (40_decode.md R75 to R78). -/

namespace Sys2Proof.Machine

/-! ### Day of the week (R56, R75) -/

/-- An index 0 to 6 is a known day, whose code is the index. -/
theorem dowOfIndex_of_lt :
    ∀ n, n < 7 → dowValidOf (dowOfIndex n) = true ∧ (dowCode (dowOfIndex n)).toNat = n := by
  decide

theorem dowOfIndex_of_ge {n : Nat} (h : 7 ≤ n) : dowOfIndex n = .unknown := by
  obtain ⟨k, rfl⟩ := Nat.exists_eq_add_of_le' h
  rfl

theorem dowOf_of_pos {b : Byte} (h : 1 ≤ b.toNat) : dowOf b = dowOfIndex (b.toNat - 1) :=
  if_neg (by omega)

theorem dowOf_known {b : Byte} (h : 1 ≤ b.toNat ∧ b.toNat ≤ 7) :
    dowValidOf (dowOf b) = true ∧ (dowCode (dowOf b)).toNat = b.toNat - 1 := by
  rw [dowOf_of_pos h.1]
  exact dowOfIndex_of_lt _ (by omega)

theorem dowOf_unknown {b : Byte} (h : b.toNat = 0 ∨ 8 ≤ b.toNat) : dowOf b = .unknown := by
  rcases h with zero | large
  · exact if_pos zero
  · rw [dowOf_of_pos (by omega)]
    exact dowOfIndex_of_ge (by omega)

/-- Settles O13: DEC.DOW drives `dowOf` of its byte, known on 1 to 7 and unknown elsewhere. -/
theorem dayOfWeekIndexIsMapped : Obligations.DayOfWeekIndexIsMapped := by
  intro raw s
  refine ⟨dowOf raw.dow, dowValidOf (dowOf raw.dow), rfl, dowOf_known, ?unknown, rfl⟩
  case unknown =>
    intro h
    rw [dowOf_unknown h]
    exact ⟨rfl, rfl, rfl⟩

/-! ### Month and year (R76, R77) -/

/-- Settles O14: DEC.MON drives `monthOf` of its byte, which never wraps and leaves the century bit out. -/
theorem monthDecodesWithoutTheCenturyBit : Obligations.MonthDecodesWithoutTheCenturyBit :=
  fun raw _ => ⟨monthOf raw.mon, rfl, monthOf_toNat raw.mon, rfl⟩

/-- The month reads bits 6:0 of its byte only. -/
theorem monthOf_congr {b b' : Byte} (h : b &&& 0x7F#8 = b' &&& 0x7F#8) : monthOf b = monthOf b' :=
  congrArg bcd8 h

theorem centuryBit_and_0x80 (b : Byte) : centuryBit (b &&& 0x80#8) = centuryBit b := by
  simp [centuryBit]

/-- The year reads bit 7 of the month byte only, and its own byte. -/
theorem yearOf_congr {mon mon' year year' : Byte} (century : mon &&& 0x80#8 = mon' &&& 0x80#8)
    (sameYear : year = year') : yearOf mon year = yearOf mon' year' := by
  have sameCentury : centuryBit mon = centuryBit mon' := by
    rw [← centuryBit_and_0x80 mon, century, centuryBit_and_0x80]
  rw [yearOf, yearOf, sameCentury, sameYear]

/-! ### The whole snapshot (R78) -/

theorem exec_decode (raw : RawSnapshot) (s : State) :
    exec (.decode raw) s = .next (s.drive (timePorts (timeOf raw))) := rfl

/-- Settles O16: DECODE drives the ports of `timeOf`, field by field the functions the seven decoders apply, each
congruent in the bits it reads. -/
theorem wholeDecodeIsTheSevenFieldDecoders : Obligations.WholeDecodeIsTheSevenFieldDecoders := by
  refine ⟨?together, ?independent⟩
  case together =>
    intro raw s
    exact ⟨_, _, _, _, _, _, _, rfl, rfl, rfl, rfl, rfl, rfl, rfl, exec_decode raw s, rfl⟩
  case independent =>
    intro raw raw' s
    refine ⟨_, _, exec_decode raw s, exec_decode raw' s, ?sec, ?min, ?hour, ?dow, ?day, ?month, ?year⟩
    case sec => exact congrArg fun b => some (bcd8 b)
    case min => exact congrArg fun b => some (bcd8 b)
    case day => exact congrArg fun b => some (bcd8 b)
    case hour => exact fun h => ⟨congrArg (fun b => some (hourTagOf b)) h, congrArg (fun b => some (hourValOf b)) h⟩
    case dow => exact fun h => ⟨congrArg (fun b => some (dowOf b)) h, congrArg (fun b => some (dowValidOf (dowOf b))) h⟩
    case month => exact fun h => congrArg some (monthOf_congr h)
    case year => exact fun century sameYear => congrArg some (yearOf_congr century sameYear)

end Sys2Proof.Machine
end

section
/-! PROOFS. The encode unit's year, and the round trips of hours, day of the week, month and year
(41_encode.md R88, R89, R91, R92, R95). -/

namespace Sys2Proof.Machine

/-- Settles O22: ENC.YEAR drives `yearByte`, whose two digits are those of the year modulo 100. -/
theorem yearEncodesModulo100 : Obligations.YearEncodesModulo100 :=
  fun year _ => ⟨yearByte year, rfl, yearByte_toNat year, rfl⟩

/-! ### The two digits of a packed byte -/

/-- A sum that fits two digits, the tens digit up to 15, is packed without loss. -/
theorem pack8_ofNat_digits {n : Nat} (fits : n ≤ 159) :
    (pack8 (BitVec.ofNat 8 n)).toNat / 16 = n / 10 ∧ (pack8 (BitVec.ofNat 8 n)).toNat % 16 = n % 10 := by
  rw [pack8_toNat, BitVec.toNat_ofNat, Nat.mod_eq_of_lt (by omega)]
  omega

theorem hourByte_digits {tag : HourTag} {v : Byte} (fits : v.toNat + hourOffset tag ≤ 159) :
    (hourByte tag v).toNat / 16 = (v.toNat + hourOffset tag) / 10 ∧
      (hourByte tag v).toNat % 16 = (v.toNat + hourOffset tag) % 10 :=
  pack8_ofNat_digits fits

theorem monthByte_digits {month : Byte} {year : Year} (fits : month.toNat + centuryOffset year ≤ 159) :
    (monthByte month year).toNat / 16 = (month.toNat + centuryOffset year) / 10 ∧
      (monthByte month year).toNat % 16 = (month.toNat + centuryOffset year) % 10 :=
  pack8_ofNat_digits fits

/-! ### Hours -/

theorem exec_decHour (raw : RawSnapshot) (s : State) :
    exec (.decHour raw) s = .next (s.drive { Ports.undriven with
      hrTag := some (hourTagOf raw.hour), hrVal := some (hourValOf raw.hour) }) := rfl

theorem hourTagOf_eq_ite (b : Byte) :
    hourTagOf b = if b.toNat / 64 % 2 = 1 then (if b.toNat / 32 % 2 = 1 then .pm else .am) else .h24 := by
  simp [hourTagOf, mode12_eq, pmBit_eq]

theorem hourValOf_toNat_eq_ite (b : Byte) :
    (hourValOf b).toNat =
      if b.toNat / 64 % 2 = 1 then b.toNat % 16 + 10 * (b.toNat / 16 % 2) else b.toNat % 16 + 10 * (b.toNat / 16 % 4) := by
  simp [hourValOf_toNat, mode12_eq]

/-- With its offset an hours value within its tag's extent fits two digits, and the tens digit carries the tag: 0 to 3 for 24 hours,
4 and 5 for AM, 6 and 7 for PM. So the decoder recovers tag and value. -/
theorem hour_decode_encode {tag : HourTag} {v : Byte} (extent : v.toNat ≤ if tag = .h24 then 39 else 19) :
    hourTagOf (hourByte tag v) = tag ∧ hourValOf (hourByte tag v) = v := by
  have fits : v.toNat + hourOffset tag ≤ 159 := by
    cases tag <;> simp [hourOffset] at extent ⊢ <;> omega
  obtain ⟨tens, units⟩ := hourByte_digits fits
  cases tag with
  | h24 =>
    simp only [if_true, hourOffset] at extent tens units
    have mode : ¬ (hourByte .h24 v).toNat / 64 % 2 = 1 := by omega
    refine ⟨by rw [hourTagOf_eq_ite, if_neg mode], BitVec.eq_of_toNat_eq ?_⟩
    rw [hourValOf_toNat_eq_ite, if_neg mode]; omega
  | am =>
    simp only [if_false, hourOffset, reduceCtorEq] at extent tens units
    have mode : (hourByte .am v).toNat / 64 % 2 = 1 := by omega
    have pm : ¬ (hourByte .am v).toNat / 32 % 2 = 1 := by omega
    refine ⟨by rw [hourTagOf_eq_ite, if_pos mode, if_neg pm], BitVec.eq_of_toNat_eq ?_⟩
    rw [hourValOf_toNat_eq_ite, if_pos mode]; omega
  | pm =>
    simp only [if_false, hourOffset, reduceCtorEq] at extent tens units
    have mode : (hourByte .pm v).toNat / 64 % 2 = 1 := by omega
    have pm : (hourByte .pm v).toNat / 32 % 2 = 1 := by omega
    refine ⟨by rw [hourTagOf_eq_ite, if_pos mode, if_pos pm], BitVec.eq_of_toNat_eq ?_⟩
    rw [hourValOf_toNat_eq_ite, if_pos mode]; omega

/-! ### Day of the week -/

theorem exec_decDow (raw : RawSnapshot) (s : State) :
    exec (.decDow raw) s = .next (s.drive { Ports.undriven with
      dow := some (dowOf raw.dow), dowValid := some (dowValidOf (dowOf raw.dow)) }) := rfl

/-- The unknown day too: its code 7 becomes the raw byte 8, which decodes to unknown. -/
theorem dowOf_dowByte_dowCode (d : Dow) : dowOf (dowByte ((dowCode d).setWidth 8)) = d := by
  cases d <;> rfl

theorem dowValidOf_eq_true_iff {d : Dow} : dowValidOf d = true ↔ d ≠ .unknown := bne_iff_ne

/-! ### Month and year -/

theorem exec_decYear (raw : RawSnapshot) (s : State) :
    exec (.decYear raw) s = .next (s.drive { Ports.undriven with year := some (yearOf raw.mon raw.year) }) := rfl

/-- The offset 80 puts the tens digit at 8 or above, which is the century bit; a month up to 79 alone does not reach it. -/
theorem centuryBit_monthByte {month : Byte} (year : Year) (extent : month.toNat ≤ 79) :
    centuryBit (monthByte month year) = decide (2000 ≤ year.toNat) := by
  by_cases late : 2000 ≤ year.toNat
  · have offset : centuryOffset year = 80 := if_pos late
    obtain ⟨tens, -⟩ := monthByte_digits (month := month) (year := year) (by omega)
    rw [centuryBit_eq, decide_eq_true late, beq_iff_eq]; omega
  · have offset : centuryOffset year = 0 := if_neg late
    obtain ⟨tens, -⟩ := monthByte_digits (month := month) (year := year) (by omega)
    rw [centuryBit_eq, decide_eq_false late, beq_eq_false_iff_ne]; omega

theorem bcd8_yearByte_toNat (year : Year) : (bcd8 (yearByte year)).toNat = year.toNat % 100 := by
  rw [bcd8_toNat, yearByte_toNat]; omega

/-- What comes back is the century of the operand's side of 2000 with its last two digits. -/
theorem yearOf_encoded_toNat {month : Byte} (year : Year) (extent : month.toNat ≤ 79) :
    (yearOf (monthByte month year) (yearByte year)).toNat =
      (if 2000 ≤ year.toNat then 2000 else 1900) + year.toNat % 100 := by
  simp only [yearOf_toNat, centuryBit_monthByte year extent, bcd8_yearByte_toNat, centuryBase, decide_eq_true_eq]

theorem year_decode_encode {month : Byte} {year : Year} (extent : month.toNat ≤ 79)
    (low : 1900 ≤ year.toNat) (high : year.toNat ≤ 2099) :
    yearOf (monthByte month year) (yearByte year) = year := by
  apply BitVec.eq_of_toNat_eq
  rw [yearOf_encoded_toNat year extent]
  split <;> omega

/-- Settles O32: within the documented ranges each decoder undoes its encoder. -/
theorem documentedRoundTrips : Obligations.DocumentedRoundTrips := by
  refine ⟨?hour, ?dow, ?absent, ?year⟩
  case hour =>
    intro tag v raw s range
    have extent : v.toNat ≤ if tag = .h24 then 39 else 19 := by
      rcases range with ⟨h24, _⟩ | ⟨twelve, _, _⟩
      · rw [if_pos h24]; omega
      · rw [if_neg twelve]; omega
    obtain ⟨tagBack, valueBack⟩ := hour_decode_encode extent
    exact ⟨hourByte tag v, rfl, by rw [exec_decHour, tagBack, valueBack]; rfl⟩
  case dow =>
    intro d raw s known
    exact ⟨dowByte ((dowCode d).setWidth 8), rfl, by
      rw [exec_decDow, dowOf_dowByte_dowCode, dowValidOf_eq_true_iff.mpr known]; rfl⟩
  case absent =>
    intro raw s zero
    rw [exec_decDow, zero]; rfl
  case year =>
    intro month year raw s extent low high
    exact ⟨_, monthByte month year, yearByte year, rfl, by
      rw [exec_decYear, year_decode_encode extent low high]; rfl⟩

end Sys2Proof.Machine
end

section
/-! PROOFS. The scheduler's flag: what POLL answers, which operations move it, and how ticks coalesce in it
(42_scheduler.md R100, R104, R106). -/

namespace Sys2Proof.Machine

/-! ### POLL (R104) -/

/-- POLL in every state: clearing a clear flag writes nothing, so the two cases of R104 are one equation. -/
theorem exec_poll (s : State) : exec .poll s = .next (s.clearUf.drive (duePort s.uf)) := execPoll_eq s

theorem exec_poll_next {s t : State} (h : exec .poll s = .next t) : t.uf = false ∧ t.out.due = some s.uf := by
  obtain ⟨-, -, -, -, -, poll, -⟩ := exec_next_writes h
  exact poll rfl

/-- Settles O37: a set flag is answered and cleared; a clear one is answered and left. -/
theorem pollReadsAndClears : Obligations.PollReadsAndClears := by
  intro s
  refine ⟨fun pending => ?pending, fun idle => ?idle, rfl⟩
  case pending => rw [exec_poll, pending]; rfl
  case idle =>
    have answer := exec_poll s
    rwa [State.clearUf_of_idle idle, idle] at answer

/-! ### The flag's transitions (R100) -/

/-- Only TICK takes the flag from Idle to Pending. -/
theorem exec_next_sets_uf {i : Instr} {s t : State} (h : exec i s = .next t) (idle : s.uf = false)
    (pending : t.uf = true) : i = .tick := by
  obtain ⟨changed, -, -, -, -, poll, -⟩ := exec_next_writes h
  rcases changed (by simp [idle, pending]) with tick | isPoll
  · exact tick
  · simp [(poll isPoll).1] at pending

/-- Only a POLL that answers 1 takes the flag from Pending to Idle. -/
theorem exec_next_clears_uf {i : Instr} {s t : State} (h : exec i s = .next t) (pending : s.uf = true)
    (idle : t.uf = false) : i = .poll ∧ t.out.due = some true := by
  obtain ⟨changed, -, -, -, tick, poll, -⟩ := exec_next_writes h
  rcases changed (by simp [idle, pending]) with isTick | isPoll
  · simp [(tick isTick).2] at idle
  · exact ⟨isPoll, pending ▸ (poll isPoll).2⟩

/-- Settles O38: the two transitions, and the values TICK and POLL leave. -/
theorem onlyTickSetsAndOnlyPollClearsTheFlag : Obligations.OnlyTickSetsAndOnlyPollClearsTheFlag := by
  intro i s t h
  obtain ⟨-, -, -, -, tick, poll, -⟩ := exec_next_writes h
  exact ⟨exec_next_sets_uf h, exec_next_clears_uf h, fun isTick => (tick isTick).2, fun isPoll => (poll isPoll).1⟩

/-! ### Sequences: coalescing (R106) -/

/-- What each operation of a sequence keeps, the sequence keeps. -/
theorem execSeq_next_keeps {P : State → Prop} {is : List Instr} {s u : State} {ps : List Ports}
    (keeps : ∀ i ∈ is, ∀ s t, exec i s = .next t → P s → P t) (h : execSeq is s = .next (u, ps)) (start : P s) : P u := by
  induction is generalizing s ps with
  | nil => cases h; exact start
  | cons i is ih =>
    obtain ⟨t, qs, first, rest, -⟩ := execSeq_cons_next h
    exact ih (fun j mem => keeps j (.tail i mem)) rest (keeps i (.head is) s t first start)

/-- A pending flag waits through every operation but POLL. -/
theorem execSeq_keeps_pending {is : List Instr} {s u : State} {ps : List Ports} (h : execSeq is s = .next (u, ps))
    (noPoll : .poll ∉ is) (pending : s.uf = true) : u.uf = true := by
  refine execSeq_next_keeps (P := (·.uf = true)) (fun i mem s t next pending => ?_) h pending
  refine Bool.eq_true_of_not_eq_false fun idle => noPoll ?_
  exact (exec_next_clears_uf next pending idle).1 ▸ mem

/-- An idle flag stays idle through every operation but TICK. -/
theorem execSeq_keeps_idle {is : List Instr} {s u : State} {ps : List Ports} (h : execSeq is s = .next (u, ps))
    (noTick : .tick ∉ is) (idle : s.uf = false) : u.uf = false := by
  refine execSeq_next_keeps (P := (·.uf = false)) (fun i mem s t next idle => ?_) h idle
  refine Bool.eq_false_of_not_eq_true fun pending => noTick ?_
  exact exec_next_sets_uf next idle pending ▸ mem

/-- A TICK with no POLL beside it leaves the flag pending: it sets it, and nothing after it clears it. -/
theorem execSeq_tick_pending {is : List Instr} {s u : State} {ps : List Ports} (h : execSeq is s = .next (u, ps))
    (tick : .tick ∈ is) (noPoll : .poll ∉ is) : u.uf = true := by
  induction is generalizing s ps with
  | nil => cases tick
  | cons i is ih =>
    obtain ⟨t, qs, first, rest, -⟩ := execSeq_cons_next h
    have noPollAfter : .poll ∉ is := fun mem => noPoll (.tail i mem)
    rcases List.mem_cons.mp tick with rfl | later
    · obtain ⟨-, rfl⟩ := execTick_next first
      exact execSeq_keeps_pending rest noPollAfter rfl
    · exact ih rest later noPollAfter

/-- One serviced firing of a running timer, and then what follows: FIRE's TIP is cleared again by its TICK (R66). -/
theorem execSeq_service_append {is : List Instr} {s u : State} {qs : List Ports} (run : s.run = true)
    (rest : execSeq is (s.clearTip.setUf.drive Ports.undriven) = .next (u, qs)) :
    execSeq (service ++ is) s = .next (u, Ports.undriven :: Ports.undriven :: qs) := by
  have fired : exec .fire s = .next (s.setTip.drive Ports.undriven) := execFire_enabled run
  have ticked : exec .tick (s.setTip.drive Ports.undriven) = .next (s.clearTip.setUf.drive Ports.undriven) :=
    execTick_enabled rfl
  exact execSeq_cons_of_next fired (execSeq_cons_of_next ticked rest)

/-- Any positive number of serviced firings leaves what one leaves. -/
theorem execSeq_services (n : Nat) {s : State} (run : s.run = true) :
    ∃ ps, execSeq (List.replicate (n + 1) service).flatten s = .next (s.clearTip.setUf.drive Ports.undriven, ps) := by
  induction n generalizing s with
  | zero => exact ⟨_, execSeq_service_append run (execSeq_nil _)⟩
  | succ n ih =>
    obtain ⟨qs, rest⟩ := ih (s := s.clearTip.setUf.drive Ports.undriven) run
    exact ⟨_, execSeq_service_append run rest⟩

/-- Settles O40: a pending flag waits for its POLL, an idle one for its TICK, and a second firing changes nothing. -/
theorem ticksCoalesceUntilPolled : Obligations.TicksCoalesceUntilPolled := by
  refine ⟨?noneMissed, ?noneTwice, ?notCounted⟩
  case noneMissed =>
    intro is s u ps h tick noPoll
    have pending := execSeq_tick_pending h tick noPoll
    exact ⟨pending, _, _, exec_poll u, by simp [pending], exec_poll _, by simp⟩
  case noneTwice =>
    intro is s t u v ps polled h noTick next
    have idle := execSeq_keeps_idle h noTick (exec_poll_next polled).1
    rw [(exec_poll_next next).2, idle]
  case notCounted =>
    intro n s run positive
    obtain ⟨m, rfl⟩ := Nat.exists_eq_add_of_le' positive
    exact execSeq_services m run

end Sys2Proof.Machine
end

section
/-! PROOFS. Every answer an operation or the presenting of one can get, faults being none of them
(60_exceptions.md R116, 30_encoding.md R61, 42_scheduler.md R102, R103). -/

namespace Sys2Proof.Machine

/-- Everything `exec` can answer: a next state, or one of three refusals, each with its one reason. -/
theorem exec_next_or_refused (i : Instr) (s : State) :
    (∃ t, exec i s = .next t) ∨
    (i.wf = false ∧ exec i s = .refused .reservedTag) ∨
    (i = .tick ∧ s.tip = false ∧ exec i s = .refused .tickNotEnabled) ∨
    (i = .fire ∧ s.run = false ∧ exec i s = .refused .fireNotEnabled) := by
  cases i with
  | encHour tag v =>
    cases tag with
    | valid _ => exact .inl ⟨_, rfl⟩
    | reserved => exact .inr (.inl ⟨rfl, rfl⟩)
  | poll => exact .inl ⟨_, exec_poll s⟩
  | tick =>
    cases tip : s.tip with
    | true => exact .inl ⟨_, execTick_enabled tip⟩
    | false => exact .inr (.inr (.inl ⟨rfl, rfl, execTick_disabled tip⟩))
  | fire =>
    cases run : s.run with
    | true => exact .inl ⟨_, execFire_enabled run⟩
    | false => exact .inr (.inr (.inr ⟨rfl, rfl, execFire_disabled run⟩))
  | _ => exact .inl ⟨_, rfl⟩

theorem exec_ne_fault (i : Instr) (s : State) (f : Fault) : exec i s ≠ .fault f := by
  rcases exec_next_or_refused i s with ⟨_, answer⟩ | ⟨-, answer⟩ | ⟨-, -, answer⟩ | ⟨-, -, answer⟩
  all_goals rw [answer]; nofun

/-- Presenting an operation faults no more than running it: it is refused before it runs, or it runs. -/
theorem step_op_ne_fault {s : State} {agent : Agent} {word : BusWord} {rest : List Input}
    (presented : s.inputs = .op agent word :: rest) (f : Fault) : step s ≠ .fault f := by
  cases answer : accept agent word with
  | error r => rw [step_op_refused presented answer]; nofun
  | ok i => rw [step_op_accepted presented answer]; exact exec_ne_fault i _ f

/-- Only TICK and FIRE can be disabled, so every other well-formed operation completes. -/
theorem exec_completes {i : Instr} (s : State) (wf : i.wf = true) (notTick : i ≠ .tick) (notFire : i ≠ .fire) :
    ∃ t, exec i s = .next t := by
  rcases exec_next_or_refused i s with completes | ⟨notWf, -⟩ | ⟨isTick, -⟩ | ⟨isFire, -⟩
  · exact completes
  · simp [wf] at notWf
  · exact absurd isTick notTick
  · exact absurd isFire notFire

/-- Settles O48: an operation has a next state or a named refusal, and none of the refusals is left where it is
well-formed and enabled. -/
theorem noOperationRaisesAFault : Obligations.NoOperationRaisesAFault := by
  refine ⟨exec_ne_fault, ?stepFaultFree, fun _ s => exec_completes s, ?tick, ?fire⟩
  case stepFaultFree => exact fun _ _ _ _ f presented => step_op_ne_fault presented f
  case tick => exact fun _ tip => ⟨_, execTick_enabled tip⟩
  case fire => exact fun _ run => ⟨_, execFire_enabled run⟩

end Sys2Proof.Machine
end

section
/-! PROOFS. The decoder and the encoder are inverse up to the ignored operand bits, and what the decoder rejects
(30_encoding.md R57 to R61). -/

namespace Sys2Proof

/-! ### The command code (R57, R60) -/

theorem cmd_toNat_eq_fields (cmd : Cmd) : cmd.toNat = 8 * (unitField cmd).toNat + (selField cmd).toNat := by
  revert cmd; decide

theorem decodeUnitOp_eq_none_iff (sel : Nat) (a : OperandBus) : decodeUnitOp sel a = none ↔ 8 ≤ sel := by
  match sel with
  | 0 | 1 | 2 | 3 | 4 | 5 | 6 | 7 => simp [decodeUnitOp]
  | n + 8 => simp [decodeUnitOp]

theorem encodeUnitOp_eq_none_iff (sel : Nat) (a : OperandBus) : encodeUnitOp sel a = none ↔ 7 ≤ sel := by
  match sel with
  | 0 | 1 | 2 | 3 | 4 | 5 | 6 => simp [encodeUnitOp]
  | n + 7 => simp [encodeUnitOp]

theorem schedulerOp_eq_none_iff (sel : Nat) : schedulerOp sel = none ↔ 4 ≤ sel := by
  match sel with
  | 0 | 1 | 2 | 3 => simp [schedulerOp]
  | n + 4 => simp [schedulerOp]

/-- The reserved codes: 15 is the encode unit's `sel` 7, 20 to 23 the scheduler's `sel` 4 to 7, 24 to 31 unit 3. -/
theorem operationOf_eq_none_iff {w : BusWord} : operationOf w = none ↔ w.cmd.toNat = 15 ∨ 20 ≤ w.cmd.toNat := by
  have code := cmd_toNat_eq_fields w.cmd
  have unitBound := (unitField w.cmd).isLt
  have selBound := (selField w.cmd).isLt
  obtain unit | unit | unit | unit : (unitField w.cmd).toNat = 0 ∨ (unitField w.cmd).toNat = 1 ∨
      (unitField w.cmd).toNat = 2 ∨ (unitField w.cmd).toNat = 3 := by omega
  · simp only [operationOf, unit, decodeUnitOp_eq_none_iff]; omega
  · simp only [operationOf, unit, encodeUnitOp_eq_none_iff]; omega
  · simp only [operationOf, unit, schedulerOp_eq_none_iff]; omega
  · simp only [operationOf, unit, true_iff]; omega

/-! ### Encoding, then decoding -/

theorem operationOf_decodeUnit (sel : BitVec 3) (a : OperandBus) :
    operationOf ⟨cmdOf 0 sel, a⟩ = decodeUnitOp sel.toNat a := by
  simp [operationOf]

theorem operationOf_encodeUnit (sel : BitVec 3) (a : OperandBus) :
    operationOf ⟨cmdOf 1 sel, a⟩ = encodeUnitOp sel.toNat a := by
  simp [operationOf]

/-- Each operation's code selects its own arm of the operation map, and each operand stands where that arm reads it. -/
theorem operationOf_encode (i : Instr) : operationOf (encode i) = some i := by
  cases i with
  | decSec raw | decMin raw | decHour raw | decDow raw | decDay raw | decMon raw | decYear raw | decode raw =>
    rw [encode, Instr.cmd, Instr.bus, operationOf_decodeUnit]
    simp [decodeUnitOp, regIndex, rawOfBus_rawToBus]
  | encSec v | encMin v | encDow v | encDay v | encMon v year | encYear year | encHour tag v =>
    rw [encode, Instr.cmd, Instr.bus, operationOf_encodeUnit]
    simp [encodeUnitOp, regIndex, valueField_operandsToBus, yearField_operandsToBus, tagField_operandsToBus]
  | poll | tick | init | fire => rfl

theorem decode_eq_ok_iff {w : BusWord} {i : Instr} : decode w = .ok i ↔ operationOf w = some i ∧ i.wf = true := by
  unfold decode
  cases operationOf w with
  | none => simp
  | some j =>
    by_cases wf : j.wf = true
    · simp only [wf, if_true, Except.ok.injEq, Option.some.injEq]
      exact ⟨fun same => ⟨same, same ▸ wf⟩, fun both => both.1⟩
    · simp only [wf, if_false, Option.some.injEq, reduceCtorEq, false_iff]
      rintro ⟨rfl, isWf⟩; exact wf isWf

theorem decode_encode {i : Instr} (wf : i.wf = true) : decode (encode i) = .ok i :=
  decode_eq_ok_iff.mpr ⟨operationOf_encode i, wf⟩

/-- Settles O1: the decoder reads back the operation, and a well-formed one is not rejected. -/
theorem encodedOperationDecodesToItself : Obligations.EncodedOperationDecodesToItself :=
  fun _ => decode_encode

/-! ### Decoding, then encoding -/

theorem rawToBus_rawOfBus (a : OperandBus) : rawToBus (rawOfBus a) = a := by
  apply field_eq_of_bits; intro i hi
  simp only [rawToBus, rawOfBus, BitVec.getLsbD_append, BitVec.getLsbD_extractLsb']
  grind

theorem tagCode_tagField (a : OperandBus) : tagCode (tagField a) = a.extractLsb' 8 2 := by
  unfold tagField
  generalize a.extractLsb' 8 2 = tag
  revert tag; decide

/-- The fields read from a bus, each masked, are the bus masked by what the encoder makes of the masks. -/
theorem operandsToBus_masked_fields (a : OperandBus) (yearMask : Year) (tagMask : BitVec 2) (valueMask : Byte) :
    operandsToBus (yearField a &&& yearMask) (a.extractLsb' 8 2 &&& tagMask) (valueField a &&& valueMask) =
      a &&& operandsToBus yearMask tagMask valueMask := by
  apply field_eq_of_bits; intro i hi
  simp only [operandsToBus_bit, BitVec.getLsbD_and, yearField, valueField, BitVec.getLsbD_extractLsb']
  grind

/-! The operands of the encode unit's commands, each under its mask of R58. -/

theorem value_masked (a : OperandBus) : operandsToBus 0#16 0#2 (valueField a) = a &&& 0xFF#56 := by
  have mask : 0xFF#56 = operandsToBus 0#16 0#2 (BitVec.allOnes 8) := by decide
  rw [mask, ← operandsToBus_masked_fields, BitVec.and_allOnes, BitVec.and_zero, BitVec.and_zero]

theorem tag_value_masked (a : OperandBus) :
    operandsToBus 0#16 (tagCode (tagField a)) (valueField a) = a &&& 0x3FF#56 := by
  have mask : 0x3FF#56 = operandsToBus 0#16 (BitVec.allOnes 2) (BitVec.allOnes 8) := by decide
  rw [mask, ← operandsToBus_masked_fields, BitVec.and_allOnes, BitVec.and_allOnes, BitVec.and_zero, tagCode_tagField]

theorem year_value_masked (a : OperandBus) :
    operandsToBus (yearField a) 0#2 (valueField a) = a &&& 0xFFFF00FF#56 := by
  have mask : 0xFFFF00FF#56 = operandsToBus (BitVec.allOnes 16) 0#2 (BitVec.allOnes 8) := by decide
  rw [mask, ← operandsToBus_masked_fields, BitVec.and_allOnes, BitVec.and_allOnes, BitVec.and_zero]

theorem year_masked (a : OperandBus) : operandsToBus (yearField a) 0#2 0#8 = a &&& 0xFFFF0000#56 := by
  have mask : 0xFFFF0000#56 = operandsToBus (BitVec.allOnes 16) 0#2 0#8 := by decide
  rw [mask, ← operandsToBus_masked_fields, BitVec.and_allOnes, BitVec.and_zero, BitVec.and_zero]

/-! One lemma for each unit, by the eight values of `sel`. -/

theorem encode_of_decodeUnitOp {sel : BitVec 3} {a : OperandBus} {i : Instr}
    (h : decodeUnitOp sel.toNat a = some i) : encode i = ⟨cmdOf 0 sel, a &&& operandMask (cmdOf 0 sel)⟩ := by
  have bus : rawToBus (rawOfBus a) = a &&& 0xFFFFFFFFFFFFFF#56 := by
    rw [rawToBus_rawOfBus, Laws.IgnoredBits.full_mask]
  obtain ⟨sel⟩ := sel
  fin_cases sel <;> cases h <;> exact congrArg (BusWord.mk _) bus

theorem encode_of_encodeUnitOp {sel : BitVec 3} {a : OperandBus} {i : Instr}
    (h : encodeUnitOp sel.toNat a = some i) : encode i = ⟨cmdOf 1 sel, a &&& operandMask (cmdOf 1 sel)⟩ := by
  obtain ⟨sel⟩ := sel
  fin_cases sel <;> cases h <;> refine congrArg (BusWord.mk _) ?_
  exacts [value_masked a, value_masked a, tag_value_masked a, value_masked a, value_masked a, year_value_masked a,
    year_masked a]

theorem encode_of_schedulerOp {sel : BitVec 3} {i : Instr} (a : OperandBus)
    (h : schedulerOp sel.toNat = some i) : encode i = ⟨cmdOf 2 sel, a &&& operandMask (cmdOf 2 sel)⟩ := by
  have bus : 0#56 = a &&& 0#56 := BitVec.and_zero.symm
  obtain ⟨sel⟩ := sel
  fin_cases sel <;> cases h <;> exact congrArg (BusWord.mk _) bus

/-- The operation a word names, the reserved tag included, encodes to the word's own operand bits. -/
theorem encode_of_operationOf {w : BusWord} {i : Instr} (h : operationOf w = some i) :
    encode i = ⟨w.cmd, w.a &&& operandMask w.cmd⟩ := by
  have code := cmdOf_fields w.cmd
  unfold operationOf at h
  split at h
  next unit => rw [← code, BitVec.eq_of_toNat_eq (y := 0#2) unit]; exact encode_of_decodeUnitOp h
  next unit => rw [← code, BitVec.eq_of_toNat_eq (y := 1#2) unit]; exact encode_of_encodeUnitOp h
  next unit => rw [← code, BitVec.eq_of_toNat_eq (y := 2#2) unit]; exact encode_of_schedulerOp w.a h
  next => cases h

/-- Settles O2: a word that decodes names the operation, whose encoding keeps the command's operand bits. -/
theorem decodedWordIsItsOperandBits : Obligations.DecodedWordIsItsOperandBits := by
  intro w i h
  obtain ⟨names, wf⟩ := decode_eq_ok_iff.mp h
  exact ⟨wf, encode_of_operationOf names⟩

/-- Settles O3: each word's fields are read off. -/
theorem sampleWordsDecode : Obligations.SampleWordsDecode :=
  ⟨rfl, rfl, rfl, rfl, rfl, rfl, rfl, rfl, rfl⟩

/-! ### What the decoder rejects, and what it ignores -/

theorem decode_eq_reservedCommand_iff {w : BusWord} :
    decode w = .error (.reservedCommand w.cmd) ↔ w.cmd.toNat = 15 ∨ 20 ≤ w.cmd.toNat := by
  rw [← operationOf_eq_none_iff, decode]
  cases operationOf w with
  | none => simp
  | some i =>
    simp only [reduceCtorEq, iff_false]
    split <;> nofun

/-- Command code 10 with both tag bits set names ENC.HOUR with the reserved tag. -/
theorem decode_eq_reservedTag {w : BusWord} (code : w.cmd = 10#5) (low : w.a.getLsbD 8 = true)
    (high : w.a.getLsbD 9 = true) : decode w = .error .reservedTag := by
  obtain ⟨cmd, a⟩ := w
  subst code
  have tag : tagField a = .reserved := by
    have bits : a.extractLsb' 8 2 = 3#2 := by
      apply field_eq_of_bits; intro i hi
      obtain rfl | rfl : i = 0 ∨ i = 1 := by omega
      · simpa using low
      · simpa using high
    rw [tagField, bits]; rfl
  have names : operationOf ⟨10#5, a⟩ = some (.encHour .reserved (valueField a)) :=
    tag ▸ operationOf_encodeUnit (regIndex .hour) a
  rw [decode, names]; rfl

/-- The ignored bits do not name the operation: cleared, the word is the encoding of the operation it named. -/
theorem operationOf_masked (w : BusWord) : operationOf ⟨w.cmd, w.a &&& operandMask w.cmd⟩ = operationOf w := by
  cases names : operationOf w with
  | none => rw [operationOf_eq_none_iff] at names ⊢; exact names
  | some i => rw [← encode_of_operationOf names, operationOf_encode]

theorem decode_congr_of_masked_eq {cmd : Cmd} {a b : OperandBus}
    (same : a &&& operandMask cmd = b &&& operandMask cmd) : decode ⟨cmd, a⟩ = decode ⟨cmd, b⟩ := by
  have names : operationOf ⟨cmd, a⟩ = operationOf ⟨cmd, b⟩ := by
    rw [← operationOf_masked ⟨cmd, a⟩, ← operationOf_masked ⟨cmd, b⟩, same]
  rw [decode, decode, names]

end Sys2Proof
end

section
/-! PROOFS. What a step does with what is presented: the operation it runs, the refusals before one runs, and the
inputs that are no operation (60_exceptions.md R130, 30_encoding.md R60, R61, 10_state.md R23). -/

namespace Sys2Proof.Machine

/-! ### The agent of an operation (R130) -/

/-- Only TICK and FIRE are issued outside the main context. -/
theorem agentOf_eq_main {i : Instr} (notTick : i ≠ .tick) (notFire : i ≠ .fire) : agentOf i = .main := by
  cases i with
  | tick => exact absurd rfl notTick
  | fire => exact absurd rfl notFire
  | _ => rfl

theorem accept_of_decode_error {agent : Agent} {word : BusWord} {e : DecodeError} (rejected : decode word = .error e) :
    accept agent word = .error (refusalOf e) := by
  simp [accept, rejected]

theorem accept_of_wrong_agent {agent : Agent} {word : BusWord} {i : Instr} (decodes : decode word = .ok i)
    (wrong : agent ≠ agentOf i) : accept agent word = .error (.wrongContext agent) := by
  simp [accept, decodes, wrong]

/-- A well-formed operation that its own agent presents is run. -/
theorem step_present {s : State} {i : Instr} {rest : List Input} (presented : s.inputs = present i :: rest)
    (wf : i.wf = true) : step s = exec i { s with inputs := rest } :=
  step_op_accepted presented (accept_ok.mpr ⟨decode_encode wf, rfl⟩)

theorem step_wrong_agent {s : State} {agent : Agent} {word : BusWord} {rest : List Input} {i : Instr}
    (presented : s.inputs = .op agent word :: rest) (decodes : decode word = .ok i) (wrong : agent ≠ agentOf i) :
    step s = .refused (.wrongContext agent) :=
  step_op_refused presented (accept_of_wrong_agent decodes wrong)

theorem step_decode_error {s : State} {agent : Agent} {word : BusWord} {rest : List Input} {e : DecodeError}
    (presented : s.inputs = .op agent word :: rest) (rejected : decode word = .error e) :
    step s = .refused (refusalOf e) :=
  step_op_refused presented (accept_of_decode_error rejected)

/-- A step looks at a word through the decoder alone. -/
theorem step_op_congr {s : State} {agent : Agent} {word word' : BusWord} {rest : List Input}
    (same : decode word = decode word') :
    step { s with inputs := .op agent word :: rest } = step { s with inputs := .op agent word' :: rest } := by
  simp only [step, accept, same]

/-- Settles O4: the decoder's two rejections, and the step that passes the first on. -/
theorem reservedCommandCodesAreRefused : Obligations.ReservedCommandCodesAreRefused :=
  ⟨fun _ => decode_eq_reservedCommand_iff,
    fun _ _ _ _ presented reserved => step_decode_error presented (decode_eq_reservedCommand_iff.mpr reserved)⟩

/-- Settles O5: the reserved tag is refused by the operation and by the decoder, which does not read the ignored bits. -/
theorem reservedTagRefusedAndIgnoredBitsIgnored : Obligations.ReservedTagRefusedAndIgnoredBitsIgnored := by
  refine ⟨fun _ _ => rfl, ?asWord, ?ignored⟩
  case asWord =>
    exact fun _ _ _ _ presented code low high => step_decode_error presented (decode_eq_reservedTag code low high)
  case ignored =>
    exact fun _ _ _ _ _ _ same => step_op_congr (decode_congr_of_masked_eq same)

/-- Settles O6: the three clauses on the presenter say that it is the operation's own agent. -/
theorem stepRunsThePresentedOperation : Obligations.StepRunsThePresentedOperation := by
  intro s agent w rest i presented decodes tick fire main
  have own : agent = agentOf i := by
    by_cases isTick : i = .tick
    · rw [tick isTick, isTick]; rfl
    by_cases isFire : i = .fire
    · rw [fire isFire, isFire]; rfl
    rw [main isTick isFire, agentOf_eq_main isTick isFire]
  exact step_op_accepted presented (accept_ok.mpr ⟨decodes, own⟩)

/-- Settles O7: in each of the three cases the presenter is not the operation's own agent. -/
theorem wrongContextIsRefused : Obligations.WrongContextIsRefused := by
  intro s agent w rest i presented decodes other
  apply step_wrong_agent presented decodes
  rcases other with ⟨rfl, notInterrupt⟩ | ⟨rfl, notTimer⟩ | ⟨notTick, notFire, notMain⟩
  · exact notInterrupt
  · exact notTimer
  · rwa [agentOf_eq_main notTick notFire]

/-- Settles O8: the four inputs that present no operation. -/
theorem stepOnWhatIsNoOperation : Obligations.StepOnWhatIsNoOperation :=
  fun _ _ => ⟨step_idle, step_busFault, step_processorFault, step_powerCycle⟩

/-! ### The result ports are not state (R23) -/

theorem exec_out (i : Instr) (s : State) (p : Ports) : exec i { s with out := p } = exec i s := by
  cases i <;> rfl

/-- Settles O9: no operation reads the ports, and every step that keeps the state drives them anew. -/
theorem noStepReadsTheResultPorts : Obligations.NoStepReadsTheResultPorts := by
  intro s p
  obtain ⟨uf, tip, run, out, _ | ⟨_ | _ | _ | _, rest⟩⟩ := s
  case nil | cons.busFault | cons.processorFault | cons.powerCycle => rfl
  case cons.op agent word =>
    simp only [step]
    cases accept agent word with
    | error r => rfl
    | ok i => exact exec_out i ⟨uf, tip, run, out, rest⟩ p

/-- Settles O10: a due turn presents DECODE or the bus fault, and a turn that is not due presents nothing. -/
theorem dueTurnDecodesTheSnapshot : Obligations.DueTurnDecodesTheSnapshot :=
  fun _ _ _ => ⟨step_present rfl rfl, step_busFault rfl, step_idle rfl⟩

end Sys2Proof.Machine
end

section
/-! PROOFS. Hours and year of the decode unit, and the raw bits that decode reads
(40_decode.md R72, R77, 30_encoding.md R47). -/

namespace Sys2Proof.Machine

/-- Settles O12: DEC.HOUR drives the tag and the value of its byte, both split by bit 6. -/
theorem hoursDecodeByTheModeBit : Obligations.HoursDecodeByTheModeBit := by
  intro raw s
  refine ⟨hourTagOf raw.hour, hourValOf raw.hour, exec_decHour raw s, ?pm, ?am, ?twelve, ?twentyFour⟩
  case pm => intro mode pm; rw [hourTagOf_eq_ite, if_pos mode, if_pos pm]
  case am => intro mode am; rw [hourTagOf_eq_ite, if_pos mode, if_neg (by omega)]
  case twelve => intro mode; rw [hourValOf_toNat_eq_ite, if_pos mode]
  case twentyFour =>
    intro mode
    have not12 : ¬ raw.hour.toNat / 64 % 2 = 1 := by omega
    rw [hourTagOf_eq_ite, hourValOf_toNat_eq_ite, if_neg not12, if_neg not12]
    exact ⟨rfl, rfl⟩

/-- The century bit is set from 128 on. -/
theorem yearOf_toNat_eq_ite (mon year : Byte) :
    (yearOf mon year).toNat = (if 128 ≤ mon.toNat then 2000 else 1900) + (year.toNat % 16 + 10 * (year.toNat / 16)) := by
  have century : mon.toNat / 128 % 2 = 1 ↔ 128 ≤ mon.toNat := by have := mon.isLt; omega
  rw [yearOf_toNat, bcd8_toNat, centuryBit_eq, centuryBase]
  simp only [beq_iff_eq, century]

/-- Settles O15: DEC.YEAR drives the base chosen by the century bit plus the two digits. -/
theorem yearDecodesByTheCenturyBit : Obligations.YearDecodesByTheCenturyBit := by
  intro raw s
  refine ⟨yearOf raw.mon raw.year, exec_decYear raw s, ?set, ?clear⟩
  case set => intro set; rw [yearOf_toNat_eq_ite, if_pos set]
  case clear => intro clear; rw [yearOf_toNat_eq_ite, if_neg (by omega)]

/-! ### The raw bits that decode reads -/

/-- The hours read bits 6:0 of their byte only. -/
theorem hours_congr {b b' : Byte} (same : b.toNat % 128 = b'.toNat % 128) :
    hourTagOf b = hourTagOf b' ∧ hourValOf b = hourValOf b' := by
  have mode : b.toNat / 64 % 2 = b'.toNat / 64 % 2 := by omega
  have pm : b.toNat / 32 % 2 = b'.toNat / 32 % 2 := by omega
  have tens12 : b.toNat / 16 % 2 = b'.toNat / 16 % 2 := by omega
  have tens24 : b.toNat / 16 % 4 = b'.toNat / 16 % 4 := by omega
  have units : b.toNat % 16 = b'.toNat % 16 := by omega
  constructor
  · rw [hourTagOf_eq_ite, hourTagOf_eq_ite, mode, pm]
  · apply BitVec.eq_of_toNat_eq
    rw [hourValOf_toNat_eq_ite, hourValOf_toNat_eq_ite, mode, tens12, tens24, units]

theorem xor_bit7_mod_128 (b : Byte) : (b ^^^ (1#8 <<< 7)).toNat % 128 = b.toNat % 128 := by
  rw [BitVec.toNat_xor]
  exact (Nat.xor_mod_two_pow (n := 7)).trans (Nat.xor_zero _)

theorem timePorts_injective {t t' : Time} (same : timePorts t = timePorts t') : t = t' := by
  cases t; cases t'
  simp_all [timePorts]

/-- A snapshot on which every other flip shows: Monday, so that a flip in its byte gives another day or none. -/
def mondaySnapshot : RawSnapshot := ⟨0, 0, 0, 1, 0, 0, 0⟩

def flipRawBit (raw : RawSnapshot) (r : Reg) (j : Nat) : RawSnapshot := setRawByte raw r (rawByte raw r ^^^ (1#8 <<< j))

theorem timeOf_flipRawBit_ne (r : Reg) :
    ∀ j, j < 8 → ¬ (r = .hour ∧ j = 7) → timeOf (flipRawBit mondaySnapshot r j) ≠ timeOf mondaySnapshot := by
  cases r <;> decide

/-- Settles O17: the hours do not read bit 7, and one snapshot shows every other bit. -/
theorem onlyHoursBit7IsUnread : Obligations.OnlyHoursBit7IsUnread := by
  intro r j bit
  constructor
  case mp =>
    intro unread
    by_contra other
    have same : exec (.decode (flipRawBit mondaySnapshot r j)) State.reset = exec (.decode mondaySnapshot) State.reset :=
      unread mondaySnapshot State.reset
    rw [exec_decode, exec_decode] at same
    have ports := congrArg State.out (Host.Outcome.next.inj same)
    exact timeOf_flipRawBit_ne r j bit other (timePorts_injective ports)
  case mpr =>
    rintro ⟨rfl, rfl⟩ raw s
    obtain ⟨tag, value⟩ := hours_congr (xor_bit7_mod_128 raw.hour)
    rw [exec_decode, exec_decode]
    simp only [timeOf, setRawByte, rawByte, tag, value]

end Sys2Proof.Machine
end

section
/-! PROOFS. The encode unit's hours, day of the week and month, and the exact extent of the round trips
(41_encode.md R88, R89, R91, R96, 30_encoding.md R66). -/

namespace Sys2Proof.Machine

/-- Settles O19: ENC.HOUR drives `hourByte`, the packing of the wrapped sum. -/
theorem hoursEncodeWithTheTagOffset : Obligations.HoursEncodeWithTheTagOffset := by
  intro tag v s
  refine ⟨hourByte tag v, (v.toNat + hourOffset tag) % 256, rfl, ?h24, ?am, ?pm, hourByte_toNat tag v⟩
  case h24 => rintro rfl; exact Nat.mod_eq_of_lt v.isLt
  case am => rintro rfl; rfl
  case pm => rintro rfl; rfl

/-- Settles O20: ENC.DOW drives `dowByte`, which wraps at 255 alone. -/
theorem dayOfWeekEncodesAsIndexPlusOne : Obligations.DayOfWeekEncodesAsIndexPlusOne := by
  intro idx s
  refine ⟨dowByte idx, rfl, ?sum, ?wrap⟩
  case sum => intro small; rw [dowByte_toNat]; omega
  case wrap => intro last; exact BitVec.eq_of_toNat_eq (by rw [dowByte_toNat, last]; rfl)

/-- Settles O21: ENC.MON drives `monthByte`, the packing of the wrapped sum. -/
theorem monthEncodesWithTheCenturyOffset : Obligations.MonthEncodesWithTheCenturyOffset := by
  intro month year s
  refine ⟨monthByte month year, (month.toNat + centuryOffset year) % 256, rfl, ?late, ?early, monthByte_toNat month year⟩
  case late => intro late; rw [centuryOffset, if_pos late]
  case early => intro early; rw [centuryOffset, if_neg (by omega)]; exact Nat.mod_eq_of_lt month.isLt

/-! ### Two digits (R96 i, ii) -/

theorem bcd8_pack8_toNat (v : Byte) : (bcd8 (pack8 v)).toNat = v.toNat % 160 := by
  rw [bcd8_toNat, pack8_toNat]; omega

theorem bcd8_pack8 {v : Byte} (extent : v.toNat ≤ 159) : bcd8 (pack8 v) = v :=
  BitVec.eq_of_toNat_eq (by rw [bcd8_pack8_toNat]; omega)

/-- Packing gives back a byte exactly when its units nibble is a digit. -/
theorem pack8_bcd8_eq_iff (b : Byte) : pack8 (bcd8 b) = b ↔ b.toNat % 16 ≤ 9 := by
  have := b.isLt
  rw [← BitVec.toNat_inj, pack8_toNat, bcd8_toNat]; omega

/-- Settles O28: the tens digit counts modulo 16, and the units nibble must be a digit. -/
theorem twoDigitRoundTripExtent : Obligations.TwoDigitRoundTripExtent := by
  refine ⟨?decodeEncode, ?encodeDecode⟩
  case decodeEncode =>
    intro v raw s
    exact ⟨pack8 v, bcd8 (pack8 v), rfl, rfl, bcd8_pack8, fun large => by rw [bcd8_pack8_toNat]; have := v.isLt; omega⟩
  case encodeDecode =>
    exact fun raw s => ⟨bcd8 raw.sec, pack8 (bcd8 raw.sec), rfl, rfl, pack8_bcd8_eq_iff raw.sec⟩

/-! ### Hours (R96 iii) -/

/-- With a decimal units nibble an hours byte decodes to at most 39 in 24-hour mode and to at most 19 in 12-hour mode. -/
theorem hourValOf_le_of_digit {b : Byte} (digit : b.toNat % 16 ≤ 9) :
    (hourValOf b).toNat ≤ if hourTagOf b = .h24 then 39 else 19 := by
  rw [hourValOf_toNat_eq_ite, hourTagOf_eq_ite]
  by_cases mode : b.toNat / 64 % 2 = 1
  · have twelve : (if b.toNat / 32 % 2 = 1 then HourTag.pm else .am) ≠ .h24 := by split <;> nofun
    rw [if_pos mode, if_pos mode, if_neg twelve]; omega
  · rw [if_neg mode, if_neg mode, if_pos rfl]; omega

/-- Settles O29: within the extent the operands come back, and no encoded byte decodes to a value beyond it. -/
theorem hoursRoundTripExtent : Obligations.HoursRoundTripExtent := by
  intro tag v raw s
  refine ⟨hourByte tag v, _, _, rfl, exec_decHour _ s, ?beyond, hour_decode_encode⟩
  case beyond =>
    rintro ⟨tagBack, valueBack⟩
    have digit : (hourByte tag v).toNat % 16 ≤ 9 := by rw [hourByte_toNat]; omega
    have bound := hourValOf_le_of_digit digit
    rwa [tagBack, valueBack] at bound

/-! ### Day of the week (R96 iv) -/

/-- Settles O30: 0 to 6 become the bytes 1 to 7, 255 becomes 0, and every other index a byte above 7. -/
theorem dayOfWeekRoundTripExtent : Obligations.DayOfWeekRoundTripExtent := by
  intro idx raw s
  have byte := dowByte_toNat idx
  have bound := idx.isLt
  refine ⟨dowByte idx, _, _, rfl, exec_decDow _ s, ?known, ?unknown⟩
  case known =>
    intro small
    obtain ⟨valid, code⟩ := dowOf_known (b := dowByte idx) (by omega)
    exact ⟨by rw [code]; omega, valid⟩
  case unknown =>
    intro large
    rw [dowOf_unknown (b := dowByte idx) (by omega)]
    exact ⟨rfl, rfl⟩

/-! ### Month and year (R96 v) -/

theorem month_decode_encode {month : Byte} (year : Year) (extent : month.toNat ≤ 79) :
    monthOf (monthByte month year) = month := by
  have offset : centuryOffset year = 80 ∨ centuryOffset year = 0 := by unfold centuryOffset; split <;> simp
  obtain ⟨tens, units⟩ := monthByte_digits (month := month) (year := year) (by omega)
  apply BitVec.eq_of_toNat_eq
  rw [monthOf_toNat]; omega

/-- With a decimal units nibble a month byte decodes to at most 79. -/
theorem monthOf_monthByte_le (month : Byte) (year : Year) : (monthOf (monthByte month year)).toNat ≤ 79 := by
  rw [monthOf_toNat, monthByte_toNat]; omega

theorem month_decode_encode_iff (month : Byte) (year : Year) :
    monthOf (monthByte month year) = month ↔ month.toNat ≤ 79 :=
  ⟨fun back => back ▸ monthOf_monthByte_le month year, month_decode_encode year⟩

theorem year_decode_encode_iff {month : Byte} {year : Year} (extent : month.toNat ≤ 79) :
    yearOf (monthByte month year) (yearByte year) = year ↔ 1900 ≤ year.toNat ∧ year.toNat ≤ 2099 := by
  rw [← BitVec.toNat_inj, yearOf_encoded_toNat year extent]
  split <;> omega

/-- Settles O31: the month and the year that come back, and when they are the operands. -/
theorem monthAndYearRoundTripExtent : Obligations.MonthAndYearRoundTripExtent := by
  intro month year raw s
  refine ⟨_, monthByte month year, yearByte year, _, _, rfl, rfl, exec_decYear _ _,
    month_decode_encode_iff month year, ?late, ?early, year_decode_encode_iff⟩
  case late => intro extent late; rw [yearOf_encoded_toNat year extent, if_pos late]
  case early => intro extent early; rw [yearOf_encoded_toNat year extent, if_neg (by omega)]

/-! ### The whole Time (ENC.TIME) -/

/-- The seven bytes of ENC.TIME, in the order of the registers. -/
def encodedSnapshot (t : Time) : RawSnapshot :=
  ⟨pack8 t.sec, pack8 t.min, hourByte t.hrTag t.hrVal, dowByte ((dowCode t.dow).setWidth 8), pack8 t.day,
    monthByte t.month t.year, yearByte t.year⟩

/-- Settles O33: each field is within its own round trip's extent. -/
theorem encodedTimeDecodesToItself : Obligations.EncodedTimeDecodesToItself := by
  intro t s sec min day month hour low high
  obtain ⟨tagBack, valueBack⟩ := hour_decode_encode hour
  have back : timeOf (encodedSnapshot t) = t := by
    simp only [timeOf, encodedSnapshot, bcd8_pack8 sec, bcd8_pack8 min, tagBack, valueBack, dowOf_dowByte_dowCode,
      bcd8_pack8 day, month_decode_encode t.year month, year_decode_encode month low high]
  refine ⟨_, _, _, _, _, _, _, _, rfl, ⟨rfl, rfl, rfl, rfl⟩, ?read⟩
  case read => exact (exec_decode (encodedSnapshot t) _).trans (by rw [back]; rfl)

end Sys2Proof.Machine
end

section
/-! PROOFS. The codec's operations are pure and commute with every operation, and the ports that each operation drives
(40_decode.md R69, 41_encode.md R85, 30_encoding.md R59, R67, 60_exceptions.md R130). -/

namespace Sys2Proof.Machine

/-! ### Purity (R69, R85) -/

theorem agentOf_codec {i : Instr} (codec : isCodec i = true) : agentOf i = .main :=
  agentOf_eq_main (by rintro rfl; cases codec) (by rintro rfl; cases codec)

/-- The reserved tag is an encode operation's, so every decode operation is well-formed. -/
theorem wf_of_decode_code {i : Instr} (code : (encode i).cmd.toNat < 8) : i.wf = true := by
  cases i with
  | encHour tag v => exact absurd (show 10 < 8 from code) (by decide)
  | _ => rfl

/-- A well-formed codec operation sees nothing of what another operation did, and leaves it nothing but the ports, which
no operation reads. -/
theorem exec_codec_commutes {i j : Instr} {s t u : State} (codec : isCodec i = true) (first : exec i s = .next t)
    (second : exec j s = .next u) : exec j t = .next u ∧ exec i u = .next { u with out := t.out } := by
  obtain ⟨p, rfl, pure⟩ := exec_codec_of_next codec first
  exact ⟨(exec_out j s p).trans second, pure u⟩

theorem step_codec_wrong_agent {i : Instr} (codec : isCodec i = true) (s : State) (agent : Agent) (w : BusWord)
    (rest : List Input) (presented : s.inputs = .op agent w :: rest) (decodes : decode w = .ok i)
    (notMain : agent ≠ .main) : step s = .refused (.wrongContext agent) :=
  step_wrong_agent presented decodes (by rwa [agentOf_codec codec])

/-- A well-formed encode operation drives one byte on `q`. -/
theorem exec_encode {i : Instr} (codec : isCodec i = true) (code : 8 ≤ (encode i).cmd.toNat) (wf : i.wf = true) :
    ∃ q : Byte, ∀ s, exec i s = .next (s.drive (qPort q)) := by
  cases i with
  | encSec v | encMin v | encDow v | encDay v | encMon v year | encYear year => exact ⟨_, fun _ => rfl⟩
  | encHour tag v =>
    cases tag with
    | valid tag => exact ⟨_, fun _ => rfl⟩
    | reserved => cases wf
  | poll | tick | init | fire => cases codec
  | decSec _ | decMin _ | decHour _ | decDow _ | decDay _ | decMon _ | decYear _ | decode _ =>
    simp [encode, Instr.cmd, cmdOf, regIndex] at code

/-- Settles O23: a decode operation is well-formed, so its ports are its snapshot's in every state. -/
theorem decodeOperationsArePureAndCommute : Obligations.DecodeOperationsArePureAndCommute := by
  intro i codec code
  obtain ⟨p, -, pure⟩ := exec_codec codec (wf_of_decode_code code)
  exact ⟨⟨p, pure⟩, step_codec_wrong_agent codec, fun _ _ _ _ => exec_codec_commutes codec⟩

/-- Settles O24: the same of a well-formed encode operation, whose ports are `q` alone. -/
theorem encodeOperationsArePureAndCommute : Obligations.EncodeOperationsArePureAndCommute :=
  fun _ codec code wf =>
    ⟨exec_encode codec code wf, step_codec_wrong_agent codec, fun _ _ _ _ => exec_codec_commutes codec⟩

/-! ### The ports each operation drives (R59, R67) -/

/-- The result ports in the order of R54, which is the operation map's. -/
def PortName.all : List PortName := [.sec, .min, .hrTag, .hrVal, .dow, .dowValid, .day, .month, .year, .q, .due]

theorem PortName.mem_all (n : PortName) : n ∈ PortName.all := by
  cases n <;> decide

/-- An operation's row of the operation map is the list of the ports it drives. -/
theorem listedPorts_eq_driven {i : Instr} {s t : State} (h : exec i s = .next t) :
    listedPorts i = PortName.all.filter t.out.driven := by
  cases i with
  | poll => rw [exec_poll] at h; cases h; rfl
  | tick => obtain ⟨-, rfl⟩ := execTick_next h; rfl
  | fire => obtain ⟨-, rfl⟩ := execFire_next h; rfl
  | encHour tag v =>
    cases tag with
    | valid tag => cases h; rfl
    | reserved => cases h
  | _ => cases h; rfl

/-- Settles O26: the driven ports are filtered from all ports. -/
theorem operationsDriveTheListedPorts : Obligations.OperationsDriveTheListedPorts := by
  intro i s t n h
  simp [listedPorts_eq_driven h, PortName.mem_all]

end Sys2Proof.Machine
end

section
/-! PROOFS. The invariant of every reachable state (10_state.md R22, R27, 30_encoding.md R54, 40_decode.md R79). -/

namespace Sys2Proof.Machine

/-- A pending firing comes from a FIRE, which a running timer alone can take; a pending flag comes from a TICK, which a
pending firing alone enables; and no operation stops the timer (R27). -/
theorem exec_next_started {i : Instr} {s t : State} (h : exec i s = .next t) (started : s.started) : t.started := by
  obtain ⟨tipRun, ufRun⟩ := started
  rcases exec_next_cases h with
    ⟨-, -, p, -, rfl⟩ | ⟨-, rfl⟩ | ⟨-, tip, rfl⟩ | ⟨-, rfl⟩ | ⟨-, run, rfl⟩
  · exact ⟨tipRun, ufRun⟩
  · exact ⟨tipRun, nofun⟩
  · exact ⟨nofun, fun _ => tipRun tip⟩
  · exact ⟨fun _ => rfl, fun _ => rfl⟩
  · exact ⟨fun _ => run, ufRun⟩

/-- Ports that are in range, and any `q` and `due`: neither has a range. -/
theorem Ports.InRange.with_q_due {p : Ports} (range : p.InRange) (q : Option Byte) (due : Option Bool) :
    ({ p with q := q, due := due } : Ports).InRange :=
  { range with }

/-- A field decoder drives its part of what DECODE drives on the same snapshot, so it is in range because DECODE is. -/
theorem exec_next_inRange {i : Instr} {s t : State} (h : exec i s = .next t) : t.out.InRange := by
  cases i with
  | decSec raw => cases h; exact { undriven_inRange with sec := (timePorts_inRange raw).sec }
  | decMin raw => cases h; exact { undriven_inRange with min := (timePorts_inRange raw).min }
  | decHour raw =>
    cases h
    obtain ⟨-, -, -, -, -, h24, am, pm, hours, -⟩ := timePorts_inRange raw
    exact { undriven_inRange with h24, am, pm, hours }
  | decDow raw => cases h; exact { undriven_inRange with dowValid := (timePorts_inRange raw).dowValid }
  | decDay raw => cases h; exact { undriven_inRange with day := (timePorts_inRange raw).day }
  | decMon raw => cases h; exact { undriven_inRange with month := (timePorts_inRange raw).month }
  | decYear raw => cases h; exact { undriven_inRange with year := (timePorts_inRange raw).year }
  | decode raw => cases h; exact timePorts_inRange raw
  | encHour tag v =>
    cases tag with
    | valid tag => cases h; exact undriven_inRange.with_q_due _ none
    | reserved => cases h
  | encSec _ | encMin _ | encDow _ | encDay _ | encMon _ _ | encYear _ =>
    cases h; exact undriven_inRange.with_q_due _ none
  | poll => rw [exec_poll] at h; cases h; exact undriven_inRange.with_q_due none _
  | tick => obtain ⟨-, rfl⟩ := execTick_next h; exact undriven_inRange
  | init => cases h; exact undriven_inRange
  | fire => obtain ⟨-, rfl⟩ := execFire_next h; exact undriven_inRange

/-- The state after reset, whatever is presented to it. -/
theorem reset_inv (inputs : List Input) : ({ State.reset with inputs := inputs } : State).Inv :=
  ⟨⟨nofun, nofun⟩, undriven_inRange⟩

/-- Settles O45: the reset state's fields, and the invariant of the untouched triple. -/
theorem resetIsIdleAndMeetsTheInvariant : Obligations.ResetIsIdleAndMeetsTheInvariant :=
  ⟨rfl, reset_inv []⟩

/-- Settles O46: an idle step drives no port, an operation keeps both halves of the invariant, and a power cycle leads to
reset. -/
theorem stepKeepsTheInvariant : Obligations.StepKeepsTheInvariant := by
  intro s t inv h
  rcases step_next_cases h with ⟨-, rfl⟩ | ⟨_, _, rest, i, -, -, next⟩ | ⟨rest, -, rfl⟩
  · exact ⟨inv.started, undriven_inRange⟩
  · exact ⟨exec_next_started next inv.started, exec_next_inRange next⟩
  · exact reset_inv rest

end Sys2Proof.Machine
end

section
/-! PROOFS. The scheduler's operations, delivery of a pending firing, and the refresh that follows it
(42_scheduler.md R101 to R103, R108 to R110, 70_reset_and_hazards.md R142, R149). -/

namespace Sys2Proof.Machine

/-- Settles O34: INIT is one unconditional update. -/
theorem initSetsRun : Obligations.InitSetsRun :=
  fun _ => ⟨rfl, rfl⟩

/-- Settles O35: RUN decides whether the timer can fire. -/
theorem fireSetsTip : Obligations.FireSetsTip :=
  fun _ => ⟨execFire_enabled, execFire_disabled, rfl⟩

/-- Settles O36: TIP decides whether the handler can run. -/
theorem tickClearsTipAndSetsUf : Obligations.TickClearsTipAndSetsUf :=
  fun _ => ⟨execTick_enabled, execTick_disabled, rfl⟩

theorem exec_tick_enabled {s : State} (tip : s.tip = true) :
    exec .tick s = .next (s.clearTip.setUf.drive Ports.undriven) := execTick_enabled tip

/-- Settles O42: TIP enables TICK before and after the POLL, and the POLL answers the flag it finds. -/
theorem tickAndPollInEitherOrder : Obligations.TickAndPollInEitherOrder := by
  intro s tip
  refine ⟨?tickFirst, ?pollFirst⟩
  case tickFirst =>
    exact execSeq_cons_of_next (exec_tick_enabled tip) (execSeq_cons_of_next (exec_poll _) (execSeq_nil _))
  case pollFirst =>
    exact execSeq_cons_of_next (exec_poll s) (execSeq_cons_of_next (exec_tick_enabled tip) (execSeq_nil _))

/-! ### A pending firing waits (R109) -/

/-- Only TICK clears TIP. -/
theorem exec_next_keeps_tip {i : Instr} {s t : State} (h : exec i s = .next t) (notTick : i ≠ .tick)
    (tip : s.tip = true) : t.tip = true := by
  obtain ⟨-, changed, -, fire, -⟩ := exec_next_writes h
  by_contra cleared
  rcases changed (by simp [tip, cleared]) with isFire | isTick
  · exact cleared (fire isFire)
  · exact notTick isTick

/-- Settles O41: TIP is kept by every operation but TICK, and enables TICK. -/
theorem pendingFiringWaitsForItsTick : Obligations.PendingFiringWaitsForItsTick := by
  intro is s t ps tip h noTick
  have waiting : t.tip = true :=
    execSeq_next_keeps (P := (·.tip = true))
      (fun i mem _ _ next => exec_next_keeps_tip next fun isTick => noTick (isTick ▸ mem)) h tip
  exact ⟨waiting, _, execTick_enabled waiting, rfl⟩

/-! ### Before INIT (R101 to R103) -/

/-- `S` as reset leaves it. -/
def State.dormant (s : State) : Prop := s.uf = false ∧ s.tip = false ∧ s.run = false

/-- In a dormant machine neither FIRE nor TICK is enabled, POLL answers 0, and only INIT wakes it. -/
theorem exec_next_dormant {i : Instr} {s t : State} (h : exec i s = .next t) (dormant : s.dormant)
    (notInit : i ≠ .init) : t.dormant ∧ i ≠ .fire ∧ i ≠ .tick ∧ t.out.due ≠ some true := by
  obtain ⟨uf, tip, run⟩ := dormant
  rcases exec_next_cases h with
    ⟨codec, -, p, due, rfl⟩ | ⟨rfl, rfl⟩ | ⟨-, enabled, -⟩ | ⟨isInit, -⟩ | ⟨-, enabled, -⟩
  · refine ⟨⟨uf, tip, run⟩, ?_, ?_, by simp [due]⟩ <;> rintro rfl <;> cases codec
  · exact ⟨⟨rfl, tip, run⟩, nofun, nofun, by simp [uf]⟩
  · simp [tip] at enabled
  · exact absurd isInit notInit
  · simp [run] at enabled

theorem execSeq_dormant {is : List Instr} {s u : State} {ps : List Ports} (h : execSeq is s = .next (u, ps))
    (dormant : s.dormant) (noInit : .init ∉ is) :
    u.dormant ∧ .fire ∉ is ∧ .tick ∉ is ∧ ∀ p ∈ ps, p.due ≠ some true := by
  induction is generalizing s ps with
  | nil => cases h; simp [dormant]
  | cons i is ih =>
    obtain ⟨t, qs, first, rest, rfl⟩ := execSeq_cons_next h
    obtain ⟨notInit, noInitAfter⟩ := List.ne_and_not_mem_of_not_mem_cons noInit
    obtain ⟨dormantAfter, notFire, notTick, notDue⟩ := exec_next_dormant first dormant notInit.symm
    obtain ⟨dormantAtEnd, noFire, noTick, neverDue⟩ := ih rest dormantAfter noInitAfter
    exact ⟨dormantAtEnd, List.not_mem_cons_of_ne_of_not_mem notFire.symm noFire,
      List.not_mem_cons_of_ne_of_not_mem notTick.symm noTick, List.forall_mem_cons.mpr ⟨notDue, neverDue⟩⟩

/-- Settles O47: reset is dormant, and without an INIT it stays so. -/
theorem nothingIsDueBeforeInit : Obligations.NothingIsDueBeforeInit := by
  intro is u ps h noInit
  obtain ⟨⟨uf, tip, run⟩, quiet⟩ := execSeq_dormant h ⟨rfl, rfl, rfl⟩ noInit
  exact ⟨uf, tip, run, quiet⟩

/-! ### The tighter delivery (R110) -/

/-- A pending flag is answered by the first POLL that comes. -/
theorem execSeq_pending_answered {is : List Instr} {s u : State} {ps : List Ports} (h : execSeq is s = .next (u, ps))
    (pending : s.uf = true) (polled : .poll ∈ is) : ∃ p ∈ ps, p.due = some true := by
  induction is generalizing s ps with
  | nil => cases polled
  | cons i is ih =>
    obtain ⟨t, qs, first, rest, rfl⟩ := execSeq_cons_next h
    cases after : t.uf with
    | false => exact ⟨t.out, .head qs, (exec_next_clears_uf first pending after).2⟩
    | true =>
      have notPoll : i ≠ .poll := by
        rintro rfl
        simp [(exec_poll_next first).1] at after
      have polledAfter : .poll ∈ is := (List.mem_cons.mp polled).resolve_left notPoll.symm
      obtain ⟨p, mem, due⟩ := ih rest after polledAfter
      exact ⟨p, .tail _ mem, due⟩

theorem tightFrom_poll (n : Nat) (is : List Instr) :
    tightFrom (some n) (.poll :: is) = (n == 0 && tightFrom (some (n + 1)) is) := rfl

/-- While a firing waits, only its TICK and POLLs count. -/
theorem tightFrom_other {i : Instr} (n : Nat) (is : List Instr) (notTick : i ≠ .tick) (notPoll : i ≠ .poll) :
    tightFrom (some n) (i :: is) = tightFrom (some n) is := by
  cases i with
  | tick => exact absurd rfl notTick
  | poll => exact absurd rfl notPoll
  | _ => rfl

/-- While a firing waits after `n` POLLs and two POLLs are counted in all, at most one of them comes before the TICK, so
one finds the flag that the TICK set. -/
theorem tight_waiting_answered {n : Nat} {is : List Instr} {s u : State} {ps : List Ports}
    (h : execSeq is s = .next (u, ps)) (tight : tightFrom (some n) is = true) (few : n ≤ 1)
    (polls : 2 ≤ n + is.count .poll) : ∃ p ∈ ps, p.due = some true := by
  induction is generalizing n s ps with
  | nil => simp at polls; omega
  | cons i is ih =>
    obtain ⟨t, qs, first, rest, rfl⟩ := execSeq_cons_next h
    by_cases isPoll : i = .poll
    · subst isPoll
      rw [List.count_cons_self] at polls
      simp only [tightFrom_poll, Bool.and_eq_true, beq_iff_eq] at tight
      obtain ⟨rfl, tightAfter⟩ := tight
      obtain ⟨p, mem, due⟩ := ih rest tightAfter le_rfl (by omega)
      exact ⟨p, .tail _ mem, due⟩
    rw [List.count_cons_of_ne isPoll] at polls
    by_cases isTick : i = .tick
    · obtain ⟨-, -, -, -, tick, -⟩ := exec_next_writes first
      have polled : .poll ∈ is := List.count_pos_iff.mp (by omega)
      obtain ⟨p, mem, due⟩ := execSeq_pending_answered rest (tick isTick).2 polled
      exact ⟨p, .tail _ mem, due⟩
    · rw [tightFrom_other n is isTick isPoll] at tight
      obtain ⟨p, mem, due⟩ := ih rest tight few polls
      exact ⟨p, .tail _ mem, due⟩

/-- Settles O43: after its FIRE the firing waits, with no POLL counted yet. -/
theorem tightDeliveryAnswersWithinTwoPolls : Obligations.TightDeliveryAnswersWithinTwoPolls := by
  intro is s t ps h tight polls
  obtain ⟨_, qs, -, rest, rfl⟩ := execSeq_cons_next h
  obtain ⟨p, mem, due⟩ := tight_waiting_answered (n := 0) rest tight (by omega) (by omega)
  exact ⟨p, .tail _ mem, due⟩

/-! ### Unending runs (R142, R149) -/

/-- In an unending run a pending flag is answered at the latest by the POLL `d` operations on. -/
theorem run_pending_answered {st : Nat → State} {op : Nat → Instr} (isRun : IsRun st op) (d : Nat) {n : Nat}
    (pending : (st n).uf = true) (polled : op (n + d) = .poll) :
    ∃ m, n ≤ m ∧ op m = .poll ∧ (st (m + 1)).out.due = some true := by
  induction d generalizing n with
  | zero => exact ⟨n, le_rfl, polled, pending ▸ (exec_poll_next (polled ▸ isRun n)).2⟩
  | succ d ih =>
    cases after : (st (n + 1)).uf with
    | false =>
      obtain ⟨isPoll, due⟩ := exec_next_clears_uf (isRun n) pending after
      exact ⟨n, le_rfl, isPoll, due⟩
    | true =>
      obtain ⟨m, later, answered⟩ := ih after (Nat.succ_add_eq_add_succ n d ▸ polled)
      exact ⟨m, by omega, answered⟩

/-- Settles O44: fairness gives a FIRE, then its TICK, then a POLL, and the flag waits for that POLL or an earlier one. -/
theorem refreshIsNeverSkippedForever : Obligations.RefreshIsNeverSkippedForever := by
  intro st op isRun tickFair fireFair polling n run
  obtain ⟨k, nk, fires⟩ := fireFair n run
  obtain ⟨-, -, -, fire, -⟩ := exec_next_writes (isRun k)
  obtain ⟨l, kl, ticks⟩ := tickFair (k + 1) (fire fires)
  obtain ⟨-, -, -, -, tick, -⟩ := exec_next_writes (isRun l)
  obtain ⟨p, lp, polls⟩ := polling (l + 1)
  obtain ⟨d, rfl⟩ := Nat.exists_eq_add_of_le lp
  obtain ⟨m, lm, answered⟩ := run_pending_answered isRun d (tick ticks).2 polls
  exact ⟨m, by omega, answered⟩

end Sys2Proof.Machine
end
